-- ==== Sys2Proof/Word.lean ====
section
/-! DEFINITION. The word types of the machine (00_scope.md R7, R8). Bit 0 is the least significant bit of every value. -/

namespace Sys2Proof

/-- One byte of memory or of an instruction (R21). -/
abbrev Byte := BitVec 8

/-- A doubleword, the element of a packed vector (R5, R9). -/
abbrev Dword := BitVec 32

/-- An address, the program counter or a general register (R11, R12, R21). -/
abbrev Word := BitVec 64

/-- The contents of one vector register (R16). -/
abbrev Vec := BitVec 512

end Sys2Proof
end

