-- ==== Sys2Proof/Config.lean ====
section
/-! DEFINITION. The parameters of 00_scope.md R6: what an implementation, an operating system or a claim fixes. They are
plain data, held in the machine's state (`State.params`) and never changed by a step, so that a statement quantifies over
them. There are no free values: 93_implementation_defined.md says that no result is left open. -/

namespace Sys2Proof

/-- A range of readable addresses, `base` to `base + size - 1`. -/
structure Region where
  base : Nat
  size : Nat
  deriving DecidableEq, Repr

/-- The parameter `RESERVED_IMM8` (R6, R66): what imm8 bits 7:3 not all zero do. -/
inductive ReservedImm8 where
  /-- The encoding is refused (the spec's default). -/
  | refuse
  /-- The bits are ignored and the instruction executes with predicate `imm8[2:0]`. -/
  | ignore
  deriving DecidableEq, Repr

/-- The parameters of R6. `NUM_K` is 8, `MODE` is 64-bit mode and `OTHER_AGENTS` is none: those three are fixed by the
spec and are not fields. -/
structure Params where
  /-- `MAX_KL`, the width in bits of an opmask register. -/
  maxKL : Nat
  /-- `NUM_ZMM`, the number of vector registers. -/
  numZmm : Nat
  /-- `HAS_AVX512F`. -/
  hasAvx512f : Bool
  /-- `HAS_AVX512VL`. -/
  hasAvx512vl : Bool
  /-- `HAS_AVX10_1`. -/
  hasAvx10_1 : Bool
  /-- `STATE_ENABLED`: the enabling bits of CR4 and XCR0 are set and CR0.TS is 0 (R19). -/
  stateEnabled : Bool
  /-- `RESERVED_IMM8`. -/
  reservedImm8 : ReservedImm8
  /-- `AC_CHECK`: alignment checking of 4-byte broadcast reads is active (R38). -/
  acCheck : Bool
  /-- `Accessible`: the readable bytes, as ranges (R34). DEDUCED form, log entry 4. -/
  accessible : List Region
  deriving DecidableEq, Repr

/-- The whole 64-bit address space as one range. DESIGN CHOICE (unsafe): the value of `Accessible` at reset, log entry 5. -/
def Region.all : Region := { base := 0, size := 2 ^ 64 }

/-- The defaults of R6. `Accessible` has none there ("supplied by the claim"): DESIGN CHOICE, log entries 1 and 5. -/
def Params.default : Params where
  maxKL := 64
  numZmm := 32
  hasAvx512f := true
  hasAvx512vl := true
  hasAvx10_1 := true
  stateEnabled := true
  reservedImm8 := .refuse
  acCheck := false
  accessible := [Region.all]

end Sys2Proof
end

