-- ==== Sys2Proof/Syntax/Operand.lean ====
section
/-! DEFINITION. The operands of the one operand encoding, Op/En A (30_encoding.md R63), as data: register numbers, the
memory operand's address form (R58), the second source (R56, R59), the predicate (R80). Also the names of the two
mnemonics and the three vector lengths, by which shared definitions are indexed. -/

namespace Sys2Proof

/-- The number of an opmask register, k0 to k7 (R14). -/
abbrev KReg := Fin 8

/-- The number of a vector register, 5 bits in the encoding (R55, R56). -/
abbrev VReg := Fin 32

/-- The number of a general register, RAX is 0 and R15 is 15 (R11). -/
abbrev GReg := Fin 16

/-- The two mnemonics in scope (R3). -/
inductive CmpOp where
  | vpcmpud
  | vpcmpd
  deriving DecidableEq, Repr

/-- The three vector lengths VL (R5). -/
inductive VecLen where
  | v128
  | v256
  | v512
  deriving DecidableEq, Repr

/-- The comparison predicates, in the order of their numbers 0 to 7 (R80). -/
inductive Predicate where
  | eq
  | lt
  | le
  | never
  | neq
  | nlt
  | nle
  | always
  deriving DecidableEq, Repr

/-- The displacement that follows a ModRM or SIB byte with a base register (R60). -/
inductive Disp where
  /-- `mod = 00`: no displacement. -/
  | none
  /-- `mod = 01`: one byte, scaled when the address is formed (R61). -/
  | disp8 (d : BitVec 8)
  /-- `mod = 10`: four bytes, not scaled. -/
  | disp32 (d : BitVec 32)
  deriving DecidableEq, Repr

/-- The address forms of R58. An index register comes with a scale exponent; with no index the scale bits of the SIB byte
are kept, though they have no effect (log entry 17). -/
inductive AddrMode where
  /-- `mod = 00, rm = 101`: relative to the next instruction. -/
  | pcRel (d : BitVec 32)
  /-- No SIB byte: a base register and a displacement. -/
  | base (b : GReg) (d : Disp)
  /-- SIB byte with a base register. -/
  | sib (b : GReg) (index : Option GReg) (scale : BitVec 2) (d : Disp)
  /-- SIB byte with `mod = 00, base = 101`: no base register, a 32-bit displacement. -/
  | sibNoBase (index : Option GReg) (scale : BitVec 2) (d : BitVec 32)
  deriving DecidableEq, Repr

/-- The second source (R56, R59, the table of R32). -/
inductive Src2 where
  /-- A vector register. -/
  | reg (n : VReg)
  /-- A memory operand of the full vector width (m128, m256, m512). -/
  | mem (a : AddrMode)
  /-- One doubleword of memory, compared with every element (m32bcst). -/
  | bcst (a : AddrMode)
  deriving DecidableEq, Repr

/-- The operands of Op/En A (R63). -/
structure OpEnA where
  /-- Operand 1, the destination opmask register, `ModRM:reg` (R54). -/
  dest : KReg
  /-- The writemask `aaa`; `none` is "no writemask" (R57). -/
  mask : Option KReg
  /-- Operand 2, the first source, `EVEX.vvvv` with V' (R55). -/
  src1 : VReg
  /-- Operand 3, the second source, `ModRM:r/m` (R56). -/
  src2 : Src2
  /-- Operand 4, the predicate `imm8[2:0]` (R62). -/
  pred : Predicate
  deriving DecidableEq, Repr

end Sys2Proof
end

