-- ==== Sys2Proof/Syntax.lean ====
section
/-! DEFINITION. The instructions: one constructor per row of opcode_table.json (30_encoding.md R65). All six take the same
operands, Op/En A (R63). -/

namespace Sys2Proof

/-- An instruction in scope (R3). -/
inductive Instr where
  /-- `VPCMPUD k1 {k2}, xmm2, xmm3/m128/m32bcst, imm8` (R82). -/
  | vpcmpud128 (o : OpEnA)
  /-- `VPCMPUD k1 {k2}, ymm2, ymm3/m256/m32bcst, imm8` (R83). -/
  | vpcmpud256 (o : OpEnA)
  /-- `VPCMPUD k1 {k2}, zmm2, zmm3/m512/m32bcst, imm8` (R84). -/
  | vpcmpud512 (o : OpEnA)
  /-- `VPCMPD k1 {k2}, xmm2, xmm3/m128/m32bcst, imm8` (R101). -/
  | vpcmpd128 (o : OpEnA)
  /-- `VPCMPD k1 {k2}, ymm2, ymm3/m256/m32bcst, imm8` (R102). -/
  | vpcmpd256 (o : OpEnA)
  /-- `VPCMPD k1 {k2}, zmm2, zmm3/m512/m32bcst, imm8` (R103). -/
  | vpcmpd512 (o : OpEnA)
  deriving DecidableEq, Repr

end Sys2Proof
end

