-- ==== Sys2Proof/WellFormed.lean ====
section
/-! DEFINITION. Which instructions an encoding can name. Each check is one that the types of Syntax/Operand.lean leave
open; the decoder gives only instructions that pass, and the encoder is right on those. -/

namespace Sys2Proof

/-- k0 is no writemask: `aaa = 000` means "no writemask" (10_state.md R15, 30_encoding.md R57). -/
def maskWf : Option KReg → Bool
  | none => true
  | some n => decide (n ≠ 0)

/-- Register 4 (RSP) is no index: `X ++ index = 0100` means "no index register" (R58). -/
def indexWf : Option GReg → Bool
  | none => true
  | some x => decide (x ≠ 4)

/-- Without a SIB byte the base's low three bits are not 100, which asks for a SIB byte (R50, R58). -/
def plainBaseWf (b : GReg) : Bool := decide (b.val % 8 ≠ 4)

/-- With no displacement (`mod = 00`) the base's low three bits are not 101, which asks for a disp32 and no base
(R58, R60). -/
def bareBaseWf (b : GReg) : Disp → Bool
  | .none => decide (b.val % 8 ≠ 5)
  | .disp8 _ => true
  | .disp32 _ => true

/-- An address form that an encoding can name. -/
def AddrMode.wf : AddrMode → Bool
  | .pcRel _ => true
  | .base b d => plainBaseWf b && bareBaseWf b d
  | .sib b index _ d => indexWf index && bareBaseWf b d
  | .sibNoBase index _ _ => indexWf index

/-- A second source that an encoding can name. -/
def Src2.wf : Src2 → Bool
  | .reg _ => true
  | .mem a => a.wf
  | .bcst a => a.wf

/-- Operands that an encoding can name. -/
def OpEnA.wf (o : OpEnA) : Bool := maskWf o.mask && o.src2.wf

/-- An instruction that an encoding can name. -/
def Instr.wf : Instr → Bool
  | .vpcmpud128 o => o.wf
  | .vpcmpud256 o => o.wf
  | .vpcmpud512 o => o.wf
  | .vpcmpd128 o => o.wf
  | .vpcmpd256 o => o.wf
  | .vpcmpd512 o => o.wf

end Sys2Proof
end

