-- ==== Sys2Proof/Decode.lean ====
section
/-! DEFINITION. The decoder, total on any list of bytes and rejecting by name (30_encoding.md R50 to R71), and after it the
encoder, written from the same tables. The layout of the EVEX payload and everything marked general knowledge in
30_encoding.md is PRESUMED by the spec itself, log entry 26. -/

namespace Sys2Proof

/-! ### The six forms -/

/-- The element count KL (R5). -/
def VecLen.kl : VecLen → Nat
  | .v128 => 4
  | .v256 => 8
  | .v512 => 16

/-- The bytes of a full memory operand, `VL/8` (R32). -/
def VecLen.bytes : VecLen → Nat
  | .v128 => 16
  | .v256 => 32
  | .v512 => 64

/-- The vector length VL in bits (R5). -/
def VecLen.bits (vl : VecLen) : Nat := 8 * vl.bytes

/-- The field `L'L` of a vector length (R53). -/
def VecLen.code : VecLen → BitVec 2
  | .v128 => 0b00#2
  | .v256 => 0b01#2
  | .v512 => 0b10#2

/-- The opcode byte of a mnemonic (R52). -/
def CmpOp.opcode : CmpOp → Byte
  | .vpcmpud => 0x1E#8
  | .vpcmpd => 0x1F#8

/-- The instruction of a mnemonic and a vector length (R65). -/
def Instr.of : CmpOp → VecLen → OpEnA → Instr
  | .vpcmpud, .v128, o => .vpcmpud128 o
  | .vpcmpud, .v256, o => .vpcmpud256 o
  | .vpcmpud, .v512, o => .vpcmpud512 o
  | .vpcmpd, .v128, o => .vpcmpd128 o
  | .vpcmpd, .v256, o => .vpcmpd256 o
  | .vpcmpd, .v512, o => .vpcmpd512 o

/-- An instruction's mnemonic (R65). -/
def Instr.op : Instr → CmpOp
  | .vpcmpud128 _ => .vpcmpud
  | .vpcmpud256 _ => .vpcmpud
  | .vpcmpud512 _ => .vpcmpud
  | .vpcmpd128 _ => .vpcmpd
  | .vpcmpd256 _ => .vpcmpd
  | .vpcmpd512 _ => .vpcmpd

/-- An instruction's vector length (R65). -/
def Instr.vl : Instr → VecLen
  | .vpcmpud128 _ => .v128
  | .vpcmpud256 _ => .v256
  | .vpcmpud512 _ => .v512
  | .vpcmpd128 _ => .v128
  | .vpcmpd256 _ => .v256
  | .vpcmpd512 _ => .v512

/-- An instruction's operands (R63). -/
def Instr.operands : Instr → OpEnA
  | .vpcmpud128 o => o
  | .vpcmpud256 o => o
  | .vpcmpud512 o => o
  | .vpcmpd128 o => o
  | .vpcmpd256 o => o
  | .vpcmpd512 o => o

/-! ### Length (R60, R64) -/

/-- ModRM.mod, bits 7:6. -/
def modOf (modrm : Byte) : BitVec 2 := modrm.extractLsb' 6 2

/-- ModRM.reg, bits 5:3. -/
def regOf (modrm : Byte) : BitVec 3 := modrm.extractLsb' 3 3

/-- ModRM.rm, bits 2:0; also SIB.base. -/
def rmOf (modrm : Byte) : BitVec 3 := modrm.extractLsb' 0 3

/-- A SIB byte is present when `mod != 11` and `rm = 100` (R50). -/
def hasSib (modrm : Byte) : Bool := modOf modrm != 0b11#2 && rmOf modrm == 0b100#3

/-- The operand is one of the two disp32-only cases of R58: `mod = 00` with `rm = 101`, or with a SIB byte whose base is
101. -/
def isBaseless (modrm sib : Byte) : Bool :=
  modOf modrm == 0b00#2 && (rmOf modrm == 0b101#3 || (rmOf modrm == 0b100#3 && rmOf sib == 0b101#3))

/-- The displacement size in bytes (R60); `sib` is looked at only where a SIB byte is present. -/
def dispSize (modrm sib : Byte) : Nat :=
  if modOf modrm == 0b01#2 then 1
  else if modOf modrm == 0b10#2 then 4
  else if isBaseless modrm sib then 4
  else 0

/-- The length of an instruction, from its byte +5 (ModRM) and its byte +6 (R64). -/
def fetchLength (modrm next : Byte) : Nat :=
  7 + (if hasSib modrm then 1 else 0) + dispSize modrm next

/-- The bytes a displacement takes (R60). -/
def Disp.size : Disp → Nat
  | .none => 0
  | .disp8 _ => 1
  | .disp32 _ => 4

/-- The SIB and displacement bytes of an address form (R50, R60). -/
def AddrMode.size : AddrMode → Nat
  | .pcRel _ => 4
  | .base _ d => d.size
  | .sib _ _ _ d => 1 + d.size
  | .sibNoBase _ _ _ => 5

/-- The SIB and displacement bytes of a second source. -/
def Src2.size : Src2 → Nat
  | .reg _ => 0
  | .mem a => a.size
  | .bcst a => a.size

/-- The length in bytes of an instruction with these operands, `4 + 1 + 1 + s + d + 1` (R64). -/
def OpEnA.length (o : OpEnA) : Nat := 7 + o.src2.size

/-- The length in bytes of an instruction (R64). -/
def Instr.length (i : Instr) : Nat := i.operands.length

/-! ### Refusals of the decoder (R71) -/

/-- Why the decoder gives bytes no meaning (R71). All are safe: the model stops where a processor may go on. -/
inductive DecodeRefusal where
  /-- Bytes +0 to +4 select no row of R65. Safe. -/
  | notInScope
  /-- `imm8[7:3] != 0` under `RESERVED_IMM8 = refuse` (R66). Safe. -/
  | reservedImm8
  /-- `EVEX.b = 1` with a register second source (R67). Safe. -/
  | bWithRegister
  /-- `EVEX.z = 1` (R68). Safe. -/
  | zSet
  /-- A stored extension bit of ModRM.reg is 0 (R54). Safe. -/
  | regExtension
  /-- A stored extension bit that address formation does not use is 0 (R58). Safe. -/
  | unusedExtensionBit
  /-- The list ends before the instruction does. The step never raises it: it fetches the whole length. Safe, DESIGN
  CHOICE, log entry 15. -/
  | truncated
  deriving DecidableEq, Repr

/-! ### Row selection (R65) -/

/-- One row of opcode_table.json. -/
structure OpcodeRow where
  op : CmpOp
  vl : VecLen
  value : BitVec 40
  deriving DecidableEq, Repr

/-- The common mask `FF 0F 87 60 FF` over bytes +0 to +4, byte +0 most significant (R65). -/
def opcodeMask : BitVec 40 := 0xFF0F8760FF#40

/-- The six rows (R65). -/
def opcodeTable : List OpcodeRow :=
  [ ⟨.vpcmpud, .v128, 0x620305001E#40⟩, ⟨.vpcmpud, .v256, 0x620305201E#40⟩, ⟨.vpcmpud, .v512, 0x620305401E#40⟩,
    ⟨.vpcmpd, .v128, 0x620305001F#40⟩, ⟨.vpcmpd, .v256, 0x620305201F#40⟩, ⟨.vpcmpd, .v512, 0x620305401F#40⟩ ]

/-- Bytes +0 to +4 as one number, byte +0 most significant (R65). -/
def leadWord (b0 p0 p1 p2 opc : Byte) : BitVec 40 := b0 ++ p0 ++ p1 ++ p2 ++ opc

/-- The row an instruction's first five bytes select (R65). -/
def selectRow (w : BitVec 40) : Option OpcodeRow :=
  opcodeTable.find? fun r => w &&& opcodeMask == r.value

/-! ### Fields (R51, R54 to R62) -/

/-- The bytes of an instruction that carry operands. -/
structure Fields where
  p0 : Byte
  p1 : Byte
  p2 : Byte
  modrm : Byte
  sib : Option Byte
  disp : Disp
  imm8 : Byte
  deriving DecidableEq, Repr

/-- The displacement bytes, little-endian (R30, R60). -/
def takeDisp : Nat → List Byte → Option (Disp × List Byte)
  | 0, bs => some (.none, bs)
  | 1, d :: bs => some (.disp8 d, bs)
  | 4, d0 :: d1 :: d2 :: d3 :: bs => some (.disp32 (d3 ++ d2 ++ d1 ++ d0), bs)
  | _, _ => none

/-- The SIB byte, where there is one (R50). -/
def takeSib (modrm : Byte) (bs : List Byte) : Option (Option Byte × List Byte) :=
  if hasSib modrm then
    match bs with
    | s :: bs => some (some s, bs)
    | [] => none
  else some (none, bs)

/-- Splits what follows the opcode byte into fields (the layout of R50); `none` where the list is too short. -/
def splitFields (p0 p1 p2 : Byte) : List Byte → Option (Fields × List Byte)
  | [] => none
  | modrm :: bs =>
    match takeSib modrm bs with
    | none => none
    | some (sib, bs) =>
      match takeDisp (dispSize modrm (sib.getD 0#8)) bs with
      | some (disp, imm8 :: bs) => some (⟨p0, p1, p2, modrm, sib, disp, imm8⟩, bs)
      | _ => none

/-- The stored bit X̄, bit 6 of P0 (R51). -/
def Fields.xBar (f : Fields) : BitVec 1 := f.p0.extractLsb' 6 1

/-- The stored bit B̄, bit 5 of P0 (R51). -/
def Fields.bBar (f : Fields) : BitVec 1 := f.p0.extractLsb' 5 1

/-- `EVEX.b`, bit 4 of P2 (R51, R59). -/
def Fields.bcst (f : Fields) : Bool := f.p2.getLsbD 4

/-- The second source is a register: `mod = 11` (R56). -/
def Fields.isReg (f : Fields) : Bool := modOf f.modrm == 0b11#2

/-- The memory operand has no base register (R58). -/
def Fields.baseless (f : Fields) : Bool := isBaseless f.modrm (f.sib.getD 0#8)

/-- A stored extension bit that the address does not use is 0: X̄ with no SIB byte, B̄ with no base register (R58). -/
def Fields.unusedBitClear (f : Fields) : Bool :=
  !f.isReg && ((!hasSib f.modrm && f.xBar == 0#1) || (f.baseless && f.bBar == 0#1))

/-- The admission checks of R71, in the order R71 lists them (DESIGN CHOICE where several hold, log entry 14). -/
def Fields.refusal (reserved : ReservedImm8) (f : Fields) : Option DecodeRefusal :=
  if reserved == .refuse && f.imm8.extractLsb' 3 5 != 0#5 then some .reservedImm8
  else if f.bcst && f.isReg then some .bWithRegister
  else if f.p2.getLsbD 7 then some .zSet
  else if !(f.p0.getLsbD 7 && f.p0.getLsbD 4) then some .regExtension
  else if f.unusedBitClear then some .unusedExtensionBit
  else none

/-- A general register number from an extension bit (not stored inverted) and three low bits (R58). -/
def gregOf (ext : BitVec 1) (low : BitVec 3) : GReg := (ext ++ low).toFin

/-- The index register: `X ++ index = 0100` is none (R58). -/
def indexOf (x : BitVec 1) (index : BitVec 3) : Option GReg :=
  if gregOf x index = 4 then none else some (gregOf x index)

/-- The predicate's number as bits (R80). -/
def Predicate.ofBits (p : BitVec 3) : Predicate :=
  match p.toNat with
  | 0 => .eq
  | 1 => .lt
  | 2 => .le
  | 3 => .never
  | 4 => .neq
  | 5 => .nlt
  | 6 => .nle
  | _ => .always

/-- The address form (R58). The displacement taken has the size `dispSize` asks for, so the cases `.none` and `.disp8` of
a form without a base register do not arise and stand for a displacement of 0. -/
def Fields.addrMode (f : Fields) : AddrMode :=
  let x := ~~~ f.xBar
  let b := ~~~ f.bBar
  let d32 : BitVec 32 := match f.disp with
    | .disp32 d => d
    | .disp8 _ => 0#32
    | .none => 0#32
  match f.sib with
  | none => if f.baseless then .pcRel d32 else .base (gregOf b (rmOf f.modrm)) f.disp
  | some s =>
    let index := indexOf x (s.extractLsb' 3 3)
    let scale := s.extractLsb' 6 2
    if f.baseless then .sibNoBase index scale d32 else .sib (gregOf b (rmOf s)) index scale f.disp

/-- The second source: a register numbered `X ++ B ++ rm`, or memory, broadcast when `b = 1` (R56, R59). -/
def Fields.src2 (f : Fields) : Src2 :=
  if f.isReg then .reg (~~~ f.xBar ++ ~~~ f.bBar ++ rmOf f.modrm).toFin
  else if f.bcst then .bcst f.addrMode
  else .mem f.addrMode

/-- The first source's number, V' and vvvv un-inverted (R55). -/
def Fields.src1 (f : Fields) : VReg := (~~~ (f.p2.extractLsb' 3 1) ++ ~~~ (f.p1.extractLsb' 3 4)).toFin

/-- The writemask: `aaa = 000` is none (R57). -/
def Fields.mask (f : Fields) : Option KReg :=
  if f.p2.extractLsb' 0 3 = 0#3 then none else some (f.p2.extractLsb' 0 3).toFin

/-- The operands of Op/En A (R63). -/
def Fields.operands (f : Fields) : OpEnA where
  dest := (regOf f.modrm).toFin
  mask := f.mask
  src1 := f.src1
  src2 := f.src2
  pred := Predicate.ofBits (f.imm8.extractLsb' 0 3)

/-- The decoder (R71): an instruction and the bytes after it, or a named refusal. -/
def decode (reserved : ReservedImm8) : List Byte → Except DecodeRefusal (Instr × List Byte)
  | b0 :: p0 :: p1 :: p2 :: opc :: bs =>
    match selectRow (leadWord b0 p0 p1 p2 opc) with
    | none => .error .notInScope
    | some row =>
      match splitFields p0 p1 p2 bs with
      | none => .error .truncated
      | some (f, rest) =>
        match f.refusal reserved with
        | some why => .error why
        | none => .ok (Instr.of row.op row.vl f.operands, rest)
  | _ => .error .truncated

/-! ### The encoder -/

/-- The number of a predicate (R80). -/
def Predicate.toBits : Predicate → BitVec 3
  | .eq => 0#3
  | .lt => 1#3
  | .le => 2#3
  | .never => 3#3
  | .neq => 4#3
  | .nlt => 5#3
  | .nle => 6#3
  | .always => 7#3

/-- A 32-bit displacement, lowest byte first (R30). -/
def disp32Bytes (d : BitVec 32) : List Byte :=
  [d.extractLsb' 0 8, d.extractLsb' 8 8, d.extractLsb' 16 8, d.extractLsb' 24 8]

/-- A displacement's bytes (R60). -/
def Disp.encode : Disp → List Byte
  | .none => []
  | .disp8 d => [d]
  | .disp32 d => disp32Bytes d

/-- ModRM.mod of a memory operand with a base register (R60). -/
def Disp.mod : Disp → BitVec 2
  | .none => 0b00#2
  | .disp8 _ => 0b01#2
  | .disp32 _ => 0b10#2

/-- What a second source puts into an instruction: the stored bits X̄ and B̄, `EVEX.b`, ModRM.mod, ModRM.rm, and the SIB
and displacement bytes. -/
structure RmParts where
  xBar : BitVec 1
  bBar : BitVec 1
  bcst : BitVec 1
  mod : BitVec 2
  rm : BitVec 3
  tail : List Byte
  deriving DecidableEq, Repr

/-- A general register's four bits. -/
def gregBits (r : GReg) : BitVec 4 := BitVec.ofFin r

/-- The four index bits `X ++ index`, 0100 for none (R58). -/
def indexBits : Option GReg → BitVec 4
  | none => 0b0100#4
  | some x => gregBits x

/-- The SIB byte (R58). -/
def sibByte (scale : BitVec 2) (index : Option GReg) (base : BitVec 3) : Byte :=
  scale ++ (indexBits index).extractLsb' 0 3 ++ base

/-- A memory operand's parts (R58, R60); stored bits that the form does not use are 1. -/
def AddrMode.parts (bcst : BitVec 1) : AddrMode → RmParts
  | .pcRel d => ⟨1#1, 1#1, bcst, 0b00#2, 0b101#3, disp32Bytes d⟩
  | .base b d =>
    ⟨1#1, ~~~ (gregBits b).extractLsb' 3 1, bcst, d.mod, (gregBits b).extractLsb' 0 3, d.encode⟩
  | .sib b index scale d =>
    ⟨~~~ (indexBits index).extractLsb' 3 1, ~~~ (gregBits b).extractLsb' 3 1, bcst, d.mod, 0b100#3,
      sibByte scale index ((gregBits b).extractLsb' 0 3) :: d.encode⟩
  | .sibNoBase index scale d =>
    ⟨~~~ (indexBits index).extractLsb' 3 1, 1#1, bcst, 0b00#2, 0b100#3,
      sibByte scale index 0b101#3 :: disp32Bytes d⟩

/-- A vector register's five bits (R55, R56). -/
def vregBits (r : VReg) : BitVec 5 := BitVec.ofFin r

/-- A second source's parts (R56, R59). -/
def Src2.parts : Src2 → RmParts
  | .reg n =>
    ⟨~~~ (vregBits n).extractLsb' 4 1, ~~~ (vregBits n).extractLsb' 3 1, 0#1, 0b11#2, (vregBits n).extractLsb' 0 3, []⟩
  | .mem a => a.parts 0#1
  | .bcst a => a.parts 1#1

/-- The field `aaa` (R57). -/
def maskBits : Option KReg → BitVec 3
  | none => 0#3
  | some n => BitVec.ofFin n

/-- Payload byte P0 (R51): `R̄ X̄ B̄ R̄' 0 011`. -/
def encodeP0 (r : RmParts) : Byte := 1#1 ++ r.xBar ++ r.bBar ++ 1#1 ++ 0#1 ++ 0b011#3

/-- Payload byte P1 (R51): `W=0 v̄vvv 1 pp=01`. -/
def encodeP1 (src1 : VReg) : Byte := 0#1 ++ ~~~ (vregBits src1).extractLsb' 0 4 ++ 1#1 ++ 0b01#2

/-- Payload byte P2 (R51): `z=0 L'L b V̄' aaa`. -/
def encodeP2 (vl : VecLen) (r : RmParts) (src1 : VReg) (mask : Option KReg) : Byte :=
  0#1 ++ vl.code ++ r.bcst ++ ~~~ (vregBits src1).extractLsb' 4 1 ++ maskBits mask

/-- The ModRM byte (R54, R56). -/
def encodeModRM (r : RmParts) (dest : KReg) : Byte := r.mod ++ (BitVec.ofFin dest : BitVec 3) ++ r.rm

/-- The imm8 byte (R62, R66). -/
def encodeImm8 (p : Predicate) : Byte := 0#5 ++ p.toBits

/-- The bytes of an instruction (R50). -/
def encode (i : Instr) : List Byte :=
  let o := i.operands
  let r := o.src2.parts
  [0x62#8, encodeP0 r, encodeP1 o.src1, encodeP2 i.vl r o.src1 o.mask, i.op.opcode, encodeModRM r o.dest]
    ++ r.tail ++ [encodeImm8 o.pred]

/-! ### The host's question about a table row -/

/-- The first `nbits` bits of `w` as the 12 bytes of the longest instruction (R64), the byte at the lowest address in the
least significant place, zeros above `nbits`. The table's own `match` numbers put byte +0 in the most significant place;
log entry 25. -/
def tableWordBits (nbits w : Nat) : BitVec 96 := BitVec.ofNat 96 (w % 2 ^ nbits)

/-- The instruction the decoder reads from those bytes, under the default `RESERVED_IMM8` of R6. -/
def decodeTableWord (nbits w : Nat) : Option Instr :=
  match decode .refuse ((List.range 12).map fun i => (tableWordBits nbits w).extractLsb' (8 * i) 8) with
  | .ok (i, _) => some i
  | .error _ => none

end Sys2Proof
end

