-- ==== Sys2Proof/Machine/State.lean ====
section
/-! DEFINITION. The machine's state as plain data (10_state.md), why a step can stop (60_exceptions.md R110, 30_encoding.md
R71), and the state after reset. -/

namespace Sys2Proof.Machine

/-- Memory as the list of its bytes that differ from what an unlisted address reads as, addresses strictly rising
(R21). -/
abbrev Memory := List Host.Cell

/-- The architectural state. -/
structure State where
  /-- `zmm[0 .. NUM_ZMM-1]`, register 0 first: `params.numZmm` registers, however many (R16). -/
  zmm : List Vec
  /-- `k[0..7]`, each the number its `params.maxKL` bits write, whatever that width is (R14; DESIGN CHOICE, log entry 2). -/
  k : Vector Nat 8
  /-- `gpr[0..15]` (R11). -/
  gpr : Vector Word 16
  /-- The address of the first byte of the instruction being executed (R12). -/
  pc : Word
  /-- EFLAGS (R13), which no instruction in scope reads or writes; log entry 10. -/
  eflags : BitVec 32
  /-- MXCSR (R18), which no instruction in scope reads or writes; log entry 10. -/
  mxcsr : BitVec 32
  /-- The one address space (R21). -/
  mem : Memory
  /-- The parameters of R6, which no step changes; log entry 1. -/
  params : Params
  deriving DecidableEq, Repr

/-- The faults of R110, each with the `pc` of `Fault(X, pc)` (R118). They are precise and terminal. -/
inductive Fault where
  /-- Raised by every instruction when the state is not enabled (R111) or the form's features are missing (R112). Safe: a
  processor faults there too (believed #UD or #NM). -/
  | ud (pc : Word)
  /-- Raised by instruction fetch and by the data read of a memory operand when the `n` bytes at `addr` are not accessible
  (R34, R114). Safe: the model does not suppress it for masked-off elements, which a processor may (R37). -/
  | memFault (addr : Word) (n : Nat) (pc : Word)
  /-- Raised by a misaligned broadcast read under `AC_CHECK` (R38, R115). Safe where `AC_CHECK` is set as the platform has
  it; its default, off, is unsafe (log entry 27). -/
  | ac (pc : Word)
  deriving DecidableEq, Repr

/-- Why bytes or an instruction have no meaning (R71). -/
inductive Refusal where
  /-- Raised by an arm of `exec` whose instruction has no meaning yet; no arm is left so. Safe. -/
  | notModelled (mnemonic : String)
  /-- Raised by the step when the decoder refuses (R71). Safe. -/
  | undecodable (why : DecodeRefusal)
  /-- Raised by every instruction when it names a vector register at or above `NUM_ZMM`, which R8 gives no meaning. Safe,
  DESIGN CHOICE, log entry 3. -/
  | noSuchVectorRegister (n : VReg)
  deriving DecidableEq, Repr

/-- The state after reset. The spec gives no reset value of its own: the registers hold R23's values for the family
(PRESUMED, log entries 7 to 10), memory lists nothing (DESIGN CHOICE, log entry 6), the parameters are the defaults of R6
(log entries 1 and 5). -/
def State.reset : State where
  zmm := List.replicate 32 0#512
  k := Vector.replicate 8 0
  gpr := Vector.replicate 16 0#64
  pc := 0xFFFFFFF0#64
  eflags := 0x00000002#32
  mxcsr := 0x1F80#32
  mem := []
  params := Params.default

end Sys2Proof.Machine
end

