-- ==== Sys2Proof/Machine/Ops.lean ====
section
/-! DEFINITION. The named operations over registers and memory (the primitives of 00_scope.md R8), admission of an access
(20_memory.md R34), and raising a fault (60_exceptions.md R118). -/

namespace Sys2Proof.Machine

/-! ### Outcomes -/

/-- What an operation of the machine answers. -/
abbrev Result (α : Type) := Host.Outcome α Fault Refusal

/-- Goes on with the value of a result, or stops as it stops. -/
def Result.thenDo {α β : Type} (r : Result α) (f : α → Result β) : Result β :=
  match r with
  | .next a => f a
  | .fault x => .fault x
  | .refused x => .refused x

/-! ### Taking an exception (R118)

The spec's faults are precise and terminal: nothing is saved, no handler is entered, and the outcome names the fault and
the `pc`. There is no return from one (R119). -/

/-- `raise X` (R118): nothing is written, and the run ends in `Fault(X, pc)`. -/
def raiseFault {α : Type} (s : State) (fault : Word → Fault) : Result α := .fault (fault s.pc)

/-- `raise UD`. -/
def raiseUD {α : Type} (s : State) : Result α := raiseFault s .ud

/-- `raise MemFault(addr, n)`. -/
def raiseMemFault {α : Type} (addr : Word) (n : Nat) (s : State) : Result α := raiseFault s (.memFault addr n)

/-- `raise AC`. -/
def raiseAC {α : Type} (s : State) : Result α := raiseFault s .ac

/-! ### Registers -/

/-- The low `MAX_KL` bits of a number: what an opmask register holds of it (R14). -/
def opmaskBits (maxKL v : Nat) : Nat := v % 2 ^ maxKL

/-- Read of opmask register `n`, a `MAX_KL`-bit value (R8). -/
def readK (s : State) (n : KReg) : Nat := opmaskBits s.params.maxKL s.k[n]

/-- `k[n] <- v`, the low `MAX_KL` bits of `v` (R8, R14). -/
def writeK (s : State) (n : KReg) (v : Nat) : State :=
  { s with k := s.k.set n (opmaskBits s.params.maxKL v) }

/-- Read of vector register `n`, for `n < NUM_ZMM` (R8, R16). In a state that meets the invariant the list holds every such
register, so the default is not reached (log entry 3). -/
def readZmm (s : State) (n : VReg) : Vec := s.zmm.getD n.val 0#512

/-- Read of general register `n` (R11). -/
def readGpr (s : State) (n : GReg) : Word := s.gpr[n]

/-- `pc <- (pc + len) mod 2^64` (R12). -/
def advancePc (s : State) (len : Nat) : State := { s with pc := s.pc + BitVec.ofNat 64 len }

/-! ### Memory -/

/-- What an address that memory does not list reads as. DESIGN CHOICE (unsafe for claims about reset), log entry 6. -/
def unlistedByte : Byte := 0#8

/-- The byte a memory holds at an address. -/
def memLookup : Memory → Nat → Byte
  | [], _ => unlistedByte
  | (b, v) :: m, a => if b = a then v else memLookup m a

/-- Memory with one byte replaced, in canonical form. -/
def memInsert : Memory → Nat → Byte → Memory
  | [], a, v => if v = unlistedByte then [] else [(a, v)]
  | (b, w) :: m, a, v =>
    if a < b then (if v = unlistedByte then (b, w) :: m else (a, v) :: (b, w) :: m)
    else if a = b then (if v = unlistedByte then m else (a, v) :: m)
    else (b, w) :: memInsert m a v

/-- Addresses from `lo` on strictly rise below 2^64, and no entry is what an unlisted address reads as. -/
def memWfFrom : Nat → Memory → Bool
  | _, [] => true
  | lo, (a, v) :: m => decide (lo ≤ a) && decide (a < 2 ^ 64) && decide (v ≠ unlistedByte) && memWfFrom (a + 1) m

/-- The canonical form of memory: equal memories are equal lists. -/
def Memory.wf (m : Memory) : Bool := memWfFrom 0 m

/-- The byte at an address (R21). -/
def readByte (s : State) (a : Word) : Byte := memLookup s.mem a.toNat

/-- Stores one byte; used by `memWrite` only. -/
def writeByte (s : State) (a : Word) (v : Byte) : State := { s with mem := memInsert s.mem a.toNat v }

/-- The `n` bytes at `a`, lowest address first; addresses wrap (R30, R33). -/
def readBytes (s : State) (a : Word) : Nat → List Byte
  | 0 => []
  | n + 1 => readByte s a :: readBytes s (a + 1#64) n

/-- `MemRead(a, n)` without its admission: the `n` bytes at `a` as one little-endian value (R8, R30). -/
def memRead (s : State) (a : Word) : (n : Nat) → BitVec (8 * n)
  | 0 => 0#0
  | n + 1 => memRead s (a + 1#64) n ++ readByte s a

/-- `MemWrite(a, n, v)`: the `n` low bytes of `v` at `a`, little-endian. R8 defines it for completeness: no instruction in
scope writes memory; it places a program (log entry 24). -/
def memWrite (s : State) (a : Word) (n : Nat) (v : Nat) : State :=
  match n with
  | 0 => s
  | n + 1 => memWrite (writeByte s a (BitVec.ofNat 8 v)) (a + 1#64) n (v / 256)

/-! ### Admission (R34) -/

/-- An address lies in a range. -/
def Region.holds (r : Region) (a : Word) : Bool := decide (r.base ≤ a.toNat) && decide (a.toNat < r.base + r.size)

/-- The byte at an address may be read. -/
def byteAccessible (p : Params) (a : Word) : Bool := p.accessible.any fun r => Region.holds r a

/-- `Accessible(a, n)`: each of the `n` bytes at `a` may be read (R6, R34). DEDUCED byte by byte, log entry 4. -/
def accessible (p : Params) (a : Word) : Nat → Bool
  | 0 => true
  | n + 1 => byteAccessible p a && accessible p (a + 1#64) n

/-- The parameters with the `n` bytes at `a` readable; unchanged where they already are. -/
def makeAccessible (p : Params) (a : Word) (n : Nat) : Params :=
  if accessible p a n then p
  else
    { p with accessible := { base := a.toNat, size := n } :: { base := 0, size := a.toNat + n - 2 ^ 64 } :: p.accessible }

end Sys2Proof.Machine
end

