-- ==== Sys2Proof/Machine/Flags.lean ====
section
/-! DEFINITION. The comparison of two elements (40_vpcmpud.md R80, R88; 41_vpcmpd.md R100) and the mask of results
(R81, R85). The instructions in scope compute no EFLAGS bit (R13): an opmask register takes what they compute. -/

namespace Sys2Proof.Machine

/-- `u32(v)`: an unsigned integer (R8). -/
def u32 (v : Dword) : Int := (v.toNat : Int)

/-- `s32(v)`: a two's-complement integer (R8, R100). -/
def s32 (v : Dword) : Int := if v.getLsbD 31 then (v.toNat : Int) - 2 ^ 32 else (v.toNat : Int)

/-- The integer a mnemonic reads an element as: VPCMPUD unsigned (R81), VPCMPD signed (R100). -/
def elementValue : CmpOp → Dword → Int
  | .vpcmpud, v => u32 v
  | .vpcmpd, v => s32 v

/-- `OP(p, a, b)` on integers (R80). -/
def compareInts : Predicate → Int → Int → Bool
  | .eq, a, b => decide (a = b)
  | .lt, a, b => decide (a < b)
  | .le, a, b => decide (a ≤ b)
  | .never, _, _ => false
  | .neq, a, b => !decide (a = b)
  | .nlt, a, b => !decide (a < b)
  | .nle, a, b => !decide (a ≤ b)
  | .always, _, _ => true

/-- The comparison of an element of the first source with one of the second (R80, R81). -/
def compareElements (op : CmpOp) (p : Predicate) (a c : Dword) : Bool :=
  compareInts p (elementValue op a) (elementValue op c)

/-- The loop of R81 over `j` from 0 to `kl - 1`: bit `j` of the result is `bit j`, every other bit is 0. -/
def maskOf (bit : Nat → Bool) : (kl : Nat) → Nat
  | 0 => 0
  | kl + 1 => maskOf bit kl ||| (if bit kl then 2 ^ kl else 0)

end Sys2Proof.Machine
end

