-- ==== Sys2Proof/Machine/Operands.lean ====
section
/-! DEFINITION. The operand forms: features (60_exceptions.md R111, R112), effective addresses (30_encoding.md R58, R61),
the first and second source (R55, R56, 20_memory.md R31, R32), the writemask (R57, 10_state.md R15). -/

namespace Sys2Proof.Machine

/-! ### Feature and state checks -/

/-- The form's feature condition (R2, R112). -/
def hasFeatures (p : Params) : VecLen → Bool
  | .v512 => p.hasAvx512f || p.hasAvx10_1
  | .v256 => (p.hasAvx512vl && p.hasAvx512f) || p.hasAvx10_1
  | .v128 => (p.hasAvx512vl && p.hasAvx512f) || p.hasAvx10_1

/-- The instruction may execute: neither case of `raise UD` holds (R111, R112). -/
def usable (p : Params) (vl : VecLen) : Bool := p.stateEnabled && hasFeatures p vl

/-! ### Vector registers that exist (R8, R16; log entry 3) -/

/-- The register's number if it is not below `NUM_ZMM`. -/
def missingVReg (p : Params) (n : VReg) : Option VReg := if n.val < p.numZmm then none else some n

/-- The vector register that a second source names and the machine lacks. -/
def Src2.missing (p : Params) : Src2 → Option VReg
  | .reg n => missingVReg p n
  | .mem _ => none
  | .bcst _ => none

/-- The first vector register that the operands name and the machine lacks. -/
def missingOperand (p : Params) (o : OpEnA) : Option VReg := (missingVReg p o.src1).or (Src2.missing p o.src2)

/-! ### Effective address (R58, R61) -/

/-- The bytes a second source reads from memory (R32); also the factor `N` of its 8-bit displacement (R61). -/
def operandBytes (vl : VecLen) : Src2 → Nat
  | .reg _ => 0
  | .mem _ => vl.bytes
  | .bcst _ => 4

/-- The displacement added to a base (R58, R61). -/
def dispValue (n : Nat) : Disp → Word
  | .none => 0#64
  | .disp8 d => d.signExtend 64 * BitVec.ofNat 64 n
  | .disp32 d => d.signExtend 64

/-- The scaled index, 0 with no index register (R58). -/
def indexValue (s : State) (scale : BitVec 2) : Option GReg → Word
  | none => 0#64
  | some x => readGpr s x * BitVec.ofNat 64 (2 ^ scale.toNat)

/-- The effective address `EA` of an address form, for an instruction of `len` bytes whose 8-bit displacements scale by
`n` (R58). -/
def effectiveAddress (s : State) (len n : Nat) : AddrMode → Word
  | .pcRel d => s.pc + BitVec.ofNat 64 len + d.signExtend 64
  | .base b d => readGpr s b + dispValue n d
  | .sib b index scale d => readGpr s b + indexValue s scale index + dispValue n d
  | .sibNoBase index scale d => indexValue s scale index + d.signExtend 64

/-- The address of an instruction's memory operand, with the length and the factor of its own form (R58, R61). -/
def operandAddress (s : State) (vl : VecLen) (o : OpEnA) (a : AddrMode) : Word :=
  effectiveAddress s o.length (operandBytes vl o.src2) a

/-! ### Sources -/

/-- Element `j` of a vector value, `v[32j+31 : 32j]` (R7). -/
def element {w : Nat} (v : BitVec w) (j : Nat) : Dword := v.extractLsb' (32 * j) 32

/-- A source register's bits `VL-1:0` (R17, R81). -/
def sourceReg (s : State) (vl : VecLen) (n : VReg) : BitVec vl.bits := (readZmm s n).setWidth vl.bits

/-- `MemRead(addr, n)` with its admission (R34). -/
def loadBytes (s : State) (addr : Word) (n : Nat) : Result (BitVec (8 * n)) :=
  if accessible s.params addr n then .next (memRead s addr n) else raiseMemFault addr n s

/-- The read of a full memory operand (R32, R81). -/
def loadFull (s : State) (vl : VecLen) (ea : Word) : Result (BitVec vl.bits) := loadBytes s ea vl.bytes

/-- The read of a broadcast operand: under `AC_CHECK` a misaligned address raises AC, before admission (R38, R89, R115,
R117). -/
def loadBroadcast (s : State) (ea : Word) : Result Dword :=
  if s.params.acCheck && ea.toNat % 4 != 0 then raiseAC s else loadBytes s ea 4

/-- The element of the second source that is compared with element `j` of the first, for every `j` (R31, R59, R81). -/
def secondSource (s : State) (vl : VecLen) (o : OpEnA) : Result (Nat → Dword) :=
  match o.src2 with
  | .reg n => .next (element (sourceReg s vl n))
  | .mem a => (loadFull s vl (operandAddress s vl o a)).thenDo fun v => .next (element v)
  | .bcst a => (loadBroadcast s (operandAddress s vl o a)).thenDo fun e => .next fun _ => e

/-- Bit `j` of the writemask: 1 for every `j` with no writemask (R57, R81). -/
def writemaskBit (s : State) (mask : Option KReg) (j : Nat) : Bool :=
  match mask with
  | none => true
  | some n => (readK s n).testBit j

end Sys2Proof.Machine
end

