-- ==== Sys2Proof/Machine/Compare.lean ====
section
/-! DEFINITION. The one operation of the six instructions, 40_vpcmpud.md R81, in the step order of R89. -/

namespace Sys2Proof.Machine

/-- The value written to the destination (R81, R85). -/
def comparisonMask (s : State) (op : CmpOp) (vl : VecLen) (o : OpEnA) (c : Nat → Dword) : Nat :=
  maskOf (fun j => writemaskBit s o.mask j && compareElements op o.pred (element (sourceReg s vl o.src1) j) (c j)) vl.kl

/-- Step 5 of R89: writes `k[d]` and advances `pc`. -/
def completeCompare (s : State) (op : CmpOp) (vl : VecLen) (o : OpEnA) (c : Nat → Dword) : State :=
  advancePc (writeK s o.dest (comparisonMask s op vl o c)) o.length

/-- The packed compare of R81, after the checks of R89 in the order of R117: `UD`, then a missing register is refused (log
entry 3), then the second source with its own faults, then the write. -/
def comparePacked (op : CmpOp) (vl : VecLen) (o : OpEnA) (s : State) : Result State :=
  if usable s.params vl then
    match missingOperand s.params o with
    | some n => .refused (.noSuchVectorRegister n)
    | none => (secondSource s vl o).thenDo fun c => .next (completeCompare s op vl o c)
  else raiseUD s

end Sys2Proof.Machine
end

