-- ==== Sys2Proof/Machine/Vpcmpd.lean ====
section
/-! DEFINITION. The meanings of the three forms of VPCMPD (41_vpcmpd.md R101, R102, R103). -/

namespace Sys2Proof.Machine

/-- VPCMPD, 128-bit form (R101). -/
def execVpcmpd128 (o : OpEnA) (s : State) : Result State := comparePacked .vpcmpd .v128 o s

/-- VPCMPD, 256-bit form (R102). -/
def execVpcmpd256 (o : OpEnA) (s : State) : Result State := comparePacked .vpcmpd .v256 o s

/-- VPCMPD, 512-bit form (R103). -/
def execVpcmpd512 (o : OpEnA) (s : State) : Result State := comparePacked .vpcmpd .v512 o s

end Sys2Proof.Machine
end

