-- ==== Sys2Proof/Machine/Vpcmpud.lean ====
section
/-! DEFINITION. The meanings of the three forms of VPCMPUD (40_vpcmpud.md R82, R83, R84). -/

namespace Sys2Proof.Machine

/-- VPCMPUD, 128-bit form (R82). -/
def execVpcmpud128 (o : OpEnA) (s : State) : Result State := comparePacked .vpcmpud .v128 o s

/-- VPCMPUD, 256-bit form (R83). -/
def execVpcmpud256 (o : OpEnA) (s : State) : Result State := comparePacked .vpcmpud .v256 o s

/-- VPCMPUD, 512-bit form (R84). -/
def execVpcmpud512 (o : OpEnA) (s : State) : Result State := comparePacked .vpcmpud .v512 o s

end Sys2Proof.Machine
end

