-- ==== Sys2Proof/Machine/Dispatch.lean ====
section
/-! DEFINITION. The dispatch of an instruction to its meaning, one arm per row of opcode_table.json. -/

namespace Sys2Proof.Machine

def exec (i : Instr) (s : State) : Host.Outcome State Fault Refusal :=
  match i with
  | .vpcmpud128 o => Sys2Proof.Machine.execVpcmpud128 o s
  | .vpcmpud256 o => Sys2Proof.Machine.execVpcmpud256 o s
  | .vpcmpud512 o => Sys2Proof.Machine.execVpcmpud512 o s
  | .vpcmpd128 o => Sys2Proof.Machine.execVpcmpd128 o s
  | .vpcmpd256 o => Sys2Proof.Machine.execVpcmpd256 o s
  | .vpcmpd512 o => Sys2Proof.Machine.execVpcmpd512 o s

end Sys2Proof.Machine
end

