-- ==== Sys2Proof/Machine/Fetch.lean ====
section
/-! DEFINITION. Steps 1 and 2 of an instruction (40_vpcmpud.md R89): fetching its bytes and decoding them, and placing an
instruction where the next fetch reads. -/

namespace Sys2Proof.Machine

/-- The length the bytes at `pc` ask for (R64), read from bytes +5 and +6 (log entry 13). -/
def lengthAtPc (s : State) : Nat := fetchLength (readByte s (s.pc + 5#64)) (readByte s (s.pc + 6#64))

/-- Step 1 of R89: the bytes at `pc`, never fewer than 7, or a fetch fault. The fault names 7 bytes where the first 7 are
not accessible, since the length is not known then (DEDUCED, log entry 12). -/
def fetchBytes (s : State) : Result (List Byte) :=
  if accessible s.params s.pc 7 then
    if accessible s.params s.pc (lengthAtPc s) then .next (readBytes s s.pc (lengthAtPc s))
    else raiseMemFault s.pc (lengthAtPc s) s
  else raiseMemFault s.pc 7 s

/-- Step 2 of R89: the decoder's instruction, or its refusal. -/
def decodeFetched (s : State) (bs : List Byte) : Result Instr :=
  match decode s.params.reservedImm8 bs with
  | .ok (i, _) => .next i
  | .error why => .refused (.undecodable why)

/-- Steps 1 and 2 of R89. -/
def fetchInstr (s : State) : Result Instr := (fetchBytes s).thenDo (decodeFetched s)

/-- Places the first `nbits` bits of `w`, zeros above, as the 12 bytes of the longest instruction (R64) at `pc`, and makes
those bytes accessible where they are not: what a program loaded from outside needs (R132; log entry 24). -/
def placeAtPc (s : State) (nbits w : Nat) : State :=
  let t := memWrite s s.pc 12 (tableWordBits nbits w).toNat
  { t with params := makeAccessible t.params t.pc 12 }

end Sys2Proof.Machine
end

