-- ==== Sys2Proof/Machine/Step.lean ====
section
/-! DEFINITION. One step of the machine (40_vpcmpud.md R89): fetch, decode, execute. `exec` itself advances `pc`. -/

namespace Sys2Proof.Machine

/-- One instruction. -/
def step (s : State) : Host.Outcome State Fault Refusal := (fetchInstr s).thenDo fun i => exec i s

/-- The state with an instruction where the step fetches its next one. -/
def State.withFetchWord (s : State) (nbits w : Nat) : State := placeAtPc s nbits w

end Sys2Proof.Machine
end

