-- ==== Sys2Proof/Safety.lean ====
section
/-! DEFINITION. The terms claims use: the machine's invariant, when an instruction executes normally, what its second
source holds, the address rule of 30_encoding.md R58 read straight off the instruction's bytes, and a run with its end. -/

namespace Sys2Proof.Machine

/-! ### The invariant -/

/-- The parameters are within R6, which bounds one of them: `MAX_KL >= 16`. -/
def Params.wf (p : Params) : Bool := decide (16 ≤ p.maxKL)

/-- Every opmask register holds a `MAX_KL`-bit value (R14). -/
def opmasksFit (s : State) : Bool := decide (∀ n : KReg, s.k[n] < 2 ^ s.params.maxKL)

/-- There are `NUM_ZMM` vector registers (R16). -/
def vectorsFit (s : State) : Bool := decide (s.zmm.length = s.params.numZmm)

/-- The machine's invariant: parameters in range, opmask registers of `MAX_KL` bits, `NUM_ZMM` vector registers, memory in
canonical form. -/
def State.wf (s : State) : Bool := Params.wf s.params && opmasksFit s && vectorsFit s && Memory.wf s.mem

/-! ### When an instruction executes normally (R89) -/

/-- The second source can be read: its register exists (R8), or its bytes are accessible (R34) and, for a broadcast under
`AC_CHECK`, its address is a multiple of 4 (R38). -/
def sourceReadable (s : State) (vl : VecLen) (o : OpEnA) : Bool :=
  match o.src2 with
  | .reg n => decide (n.val < s.params.numZmm)
  | .mem a => accessible s.params (operandAddress s vl o a) vl.bytes
  | .bcst a =>
    (!s.params.acCheck || (operandAddress s vl o a).toNat % 4 == 0)
      && accessible s.params (operandAddress s vl o a) 4

/-- The instruction with these operands and vector length executes to completion: state enabled and features present
(R111, R112), its registers exist (R8), its second source readable. -/
def executable (s : State) (vl : VecLen) (o : OpEnA) : Bool :=
  s.params.stateEnabled && hasFeatures s.params vl && decide (o.src1.val < s.params.numZmm) && sourceReadable s vl o

/-! ### What the elements are (R17, R31, R59) -/

/-- Element `j` of the first source. -/
def firstElement (s : State) (o : OpEnA) (j : Nat) : Dword := (readZmm s o.src1).extractLsb' (32 * j) 32

/-- The element that is compared with element `j` of the first source: of a register, the doubleword at `EA + 4j`, or the
one doubleword at `EA`. -/
def secondElement (s : State) (vl : VecLen) (o : OpEnA) (j : Nat) : Dword :=
  match o.src2 with
  | .reg n => (readZmm s n).extractLsb' (32 * j) 32
  | .mem a => memRead s (operandAddress s vl o a + BitVec.ofNat 64 (4 * j)) 4
  | .bcst a => memRead s (operandAddress s vl o a) 4

/-- The state after an instruction that wrote `r` to its destination and advanced `pc`: nothing else differs (R86). -/
def afterCompare (s : State) (o : OpEnA) (r : Nat) : State :=
  { s with k := s.k.set o.dest r, pc := s.pc + BitVec.ofNat 64 o.length }

/-- An instruction form completes, whenever it is executable, with R81's result: bit `j` of the destination is 1 exactly
when `j < KL`, the writemask (if any) has bit `j`, and the predicate holds of the two elements read as integers by
`value`. -/
def CompletesWith (form : OpEnA → Instr) (value : Dword → Int) (vl : VecLen) : Prop :=
  ∀ (o : OpEnA) (s : State), Params.wf s.params = true → executable s vl o = true →
    ∃ r : Nat, exec (form o) s = .next (afterCompare s o r) ∧
      ∀ j : Nat, r.testBit j = (decide (j < vl.kl) && writemaskBit s o.mask j &&
        compareInts o.pred (value (firstElement s o j)) (value (secondElement s vl o j)))

/-! ### The address rule of R58, from the bytes -/

/-- General register number `n`. -/
def gprNumbered (s : State) (n : Nat) : Word := s.gpr.toList.getD n 0#64

/-- The little-endian 32-bit value of the four bytes at an offset of a list. -/
def dwordAt (bs : List Byte) (at_ : Nat) : BitVec 32 :=
  bs.getD (at_ + 3) 0#8 ++ bs.getD (at_ + 2) 0#8 ++ bs.getD (at_ + 1) 0#8 ++ bs.getD at_ 0#8

/-- The pseudocode of R58 on the bytes of an instruction: `p0` the EVEX payload byte, `modrm` the ModRM byte, `tail` what
follows it, `len` the instruction's length, `n` the factor of R61. -/
def addressFromBytes (s : State) (p0 modrm : Byte) (tail : List Byte) (len n : Nat) : Word :=
  let mod := modrm.toNat / 64
  let rm := modrm.toNat % 8
  let x := if p0.getLsbD 6 then 0 else 8
  let b := if p0.getLsbD 5 then 0 else 8
  let sib := (tail.getD 0 0#8).toNat
  let scale := sib / 64
  let index := sib / 8 % 8
  let base := sib % 8
  let at_ := if rm = 4 then 1 else 0
  let d32 := (dwordAt tail at_).signExtend 64
  let disp := if mod = 0 then 0#64 else if mod = 1 then (tail.getD at_ 0#8).signExtend 64 * BitVec.ofNat 64 n else d32
  let next := s.pc + BitVec.ofNat 64 len
  if rm ≠ 4 then
    if mod = 0 ∧ rm = 5 then next + d32 else gprNumbered s (b + rm) + disp
  else
    let idx := if x + index = 4 then 0#64 else gprNumbered s (x + index) * BitVec.ofNat 64 (2 ^ scale)
    if mod = 0 ∧ base = 5 then idx + d32 else gprNumbered s (b + base) + idx + disp

/-! ### The end of a run (R132, R133) -/

/-- The program's `size` bytes at `base` are in memory and accessible (the premises of R132). -/
def programPlaced (s : State) (base : Word) (bytes : List Byte) : Bool :=
  accessible s.params base bytes.length && (readBytes s base bytes.length == bytes)

/-- The run of a program of `size` bytes at `base` has ended: `pc = base + P` (R133). -/
def atEnd (s : State) (base : Word) (size : Nat) : Bool := s.pc == base + BitVec.ofNat 64 size

/-- A run of at most `n` steps: the state after `n` of them, or the first stop (R133). -/
def runSteps : Nat → State → Result State
  | 0, s => .next s
  | n + 1, s => Result.thenDo (step s) (runSteps n)

end Sys2Proof.Machine
end

