-- ==== Sys2Proof/Certificates/Slice0/Obligations.lean ====
section
/-! DEFINITION. The statements for the provers. Each docstring names the rule of spec/ it formalises; where a clause rests
on a choice of the model, or on an inference or a decision the spec marks as its own, the docstring says so. -/

open Sys2Proof Sys2Proof.Machine

/-! ### Encoding -/

/-- Decoding the encoding of a well-formed instruction gives it back, whatever follows it and under either setting of
`RESERVED_IMM8`: no operand bit of any of the six forms is dropped (R50 to R65). -/
def Obligations.DecodeEncodeRoundTrip : Prop :=
  ∀ (reserved : ReservedImm8) (i : Instr) (rest : List Byte), i.wf = true →
    decode reserved (encode i ++ rest) = .ok (i, rest)

/-- Under `RESERVED_IMM8 = refuse` every admitted byte sequence is the encoding of the instruction it decodes to
(R50 to R71). This rests on log entry 17: an instruction keeps the scale bits of a SIB byte without an index register,
which R58 gives no effect, so two words that differ in them only count as two instructions here. -/
def Obligations.AdmittedBytesAreTheEncoding : Prop :=
  ∀ (bs : List Byte) (i : Instr) (rest : List Byte),
    decode .refuse bs = .ok (i, rest) → bs = encode i ++ rest

/-- The decoder gives well-formed instructions only; in particular k0 is never a writemask (10_state.md R15), RSP never an
index (R58). -/
def Obligations.DecodedInstructionsAreWellFormed : Prop :=
  ∀ (reserved : ReservedImm8) (bs : List Byte) (i : Instr) (rest : List Byte),
    decode reserved bs = .ok (i, rest) → i.wf = true ∧ i.operands.mask ≠ some 0

/-- The length of a decoded instruction is R64's formula on its ModRM and SIB bytes, it is what the decoder consumed, and
it is one of 7, 8, 9, 11, 12 (R60, R64; the spec marks R64 as derived). -/
def Obligations.DecodedLengthFollowsModRMAndSib : Prop :=
  ∀ (reserved : ReservedImm8) (b0 p0 p1 p2 opc modrm : Byte) (bs : List Byte) (i : Instr) (rest : List Byte),
    decode reserved (b0 :: p0 :: p1 :: p2 :: opc :: modrm :: bs) = .ok (i, rest) →
    i.length = 7
      + (if modrm.toNat / 64 ≠ 3 ∧ modrm.toNat % 8 = 4 then 1 else 0)
      + (if modrm.toNat / 64 = 1 then 1
         else if modrm.toNat / 64 = 2 then 4
         else if modrm.toNat / 64 = 0 ∧ (modrm.toNat % 8 = 5 ∨
           (modrm.toNat % 8 = 4 ∧ (bs.getD 0 0#8).toNat % 8 = 5)) then 4
         else 0) ∧
    (b0 :: p0 :: p1 :: p2 :: opc :: modrm :: bs).length = i.length + rest.length ∧
    i.length ∈ [7, 8, 9, 11, 12]

/-- The row selection of R65: bytes +0 to +4, as one 40-bit number with byte +0 most significant, select a form exactly
when, cut to the mask FF 0F 87 60 FF, they equal its value; otherwise no form. -/
def Obligations.FirstFiveBytesSelectTheForm : Prop :=
  ∀ b0 p0 p1 p2 opc : Byte,
    let m := b0.toNat * 2 ^ 32 + p0.toNat * 2 ^ 24 + p1.toNat * 2 ^ 16 + p2.toNat * 2 ^ 8 + opc.toNat
    let selects := fun (value : Nat) => m &&& 0xFF0F8760FF = value
    let form := (selectRow (leadWord b0 p0 p1 p2 opc)).map fun r => (r.op, r.vl)
    (form = some (.vpcmpud, .v128) ↔ selects 0x620305001E) ∧
    (form = some (.vpcmpud, .v256) ↔ selects 0x620305201E) ∧
    (form = some (.vpcmpud, .v512) ↔ selects 0x620305401E) ∧
    (form = some (.vpcmpd, .v128) ↔ selects 0x620305001F) ∧
    (form = some (.vpcmpd, .v256) ↔ selects 0x620305201F) ∧
    (form = some (.vpcmpd, .v512) ↔ selects 0x620305401F)

/-- R70 (the spec's decision D13): no byte may precede `62h`. Whatever bytes follow, an instruction whose first byte is
another is refused. -/
def Obligations.FirstByteOtherThan62IsRefused : Prop :=
  ∀ (reserved : ReservedImm8) (b0 p0 p1 p2 opc : Byte) (bs : List Byte), b0 ≠ 0x62#8 →
    decode reserved (b0 :: p0 :: p1 :: p2 :: opc :: bs) = .error .notInScope

/-- R69 (the spec's decision D12): `L'L = 11` matches no row and is refused. -/
def Obligations.LengthCode11IsRefused : Prop :=
  ∀ (reserved : ReservedImm8) (b0 p0 p1 p2 opc : Byte) (bs : List Byte),
    p2.getLsbD 6 = true → p2.getLsbD 5 = true →
    decode reserved (b0 :: p0 :: p1 :: p2 :: opc :: bs) = .error .notInScope

/-- The other cases of R71's `not_in_scope`: `W = 1`, another `pp`, another map, P0 bit 3 set, P1 bit 2 clear, another
opcode byte. -/
def Obligations.OtherOpcodeFieldsAreRefused : Prop :=
  ∀ (reserved : ReservedImm8) (b0 p0 p1 p2 opc : Byte) (bs : List Byte),
    (p1.getLsbD 7 = true ∨ p1.toNat % 4 ≠ 1 ∨ p0.toNat % 8 ≠ 3 ∨ p0.getLsbD 3 = true ∨ p1.getLsbD 2 = false ∨
      (opc ≠ 0x1E#8 ∧ opc ≠ 0x1F#8)) →
    decode reserved (b0 :: p0 :: p1 :: p2 :: opc :: bs) = .error .notInScope

/-- R68 (the spec's decision D10): `EVEX.z = 1` is refused. -/
def Obligations.ZeroingBitIsRefused : Prop :=
  ∀ (reserved : ReservedImm8) (b0 p0 p1 p2 : Byte) (bs : List Byte), p2.getLsbD 7 = true →
    ∃ why, decode reserved (b0 :: p0 :: p1 :: p2 :: bs) = .error why

/-- R67 (the spec's decision D9): `EVEX.b = 1` with a register second source is refused. -/
def Obligations.BroadcastBitWithRegisterIsRefused : Prop :=
  ∀ (reserved : ReservedImm8) (b0 p0 p1 p2 opc modrm : Byte) (bs : List Byte),
    p2.getLsbD 4 = true → modrm.toNat / 64 = 3 →
    ∃ why, decode reserved (b0 :: p0 :: p1 :: p2 :: opc :: modrm :: bs) = .error why

/-- R58's last paragraph (the spec's decision D33): X̄ stored 0 with no SIB byte, or B̄ stored 0 in a disp32-only case, is
refused. -/
def Obligations.UnusedExtensionBitIsRefused : Prop :=
  ∀ (reserved : ReservedImm8) (b0 p0 p1 p2 opc modrm : Byte) (bs : List Byte), modrm.toNat / 64 ≠ 3 →
    ((p0.getLsbD 6 = false ∧ modrm.toNat % 8 ≠ 4) ∨
     (p0.getLsbD 5 = false ∧ modrm.toNat / 64 = 0 ∧
       (modrm.toNat % 8 = 5 ∨ (modrm.toNat % 8 = 4 ∧ (bs.getD 0 0#8).toNat % 8 = 5)))) →
    ∃ why, decode reserved (b0 :: p0 :: p1 :: p2 :: opc :: modrm :: bs) = .error why

/-- R54: the destination is the opmask register `ModRM[5:3]`, and an encoding with R̄ or R̄' stored as 0 is refused (the
spec's decision D11). -/
def Obligations.DestinationIsModRMReg : Prop :=
  ∀ (reserved : ReservedImm8) (b0 p0 p1 p2 opc modrm : Byte) (bs : List Byte),
    (∀ i rest, decode reserved (b0 :: p0 :: p1 :: p2 :: opc :: modrm :: bs) = .ok (i, rest) →
      i.operands.dest.val = modrm.toNat / 8 % 8) ∧
    (p0.getLsbD 7 = false ∨ p0.getLsbD 4 = false →
      ∃ why, decode reserved (b0 :: p0 :: p1 :: p2 :: opc :: modrm :: bs) = .error why)

/-- R55: the first source's number is `31 - (16 V̄' + 8 v̄3 + 4 v̄2 + 2 v̄1 + v̄0)` with the stored bits (the spec's
general knowledge GK20). -/
def Obligations.FirstSourceIsInvertedVvvv : Prop :=
  ∀ (reserved : ReservedImm8) (b0 p0 p1 p2 : Byte) (bs : List Byte) (i : Instr) (rest : List Byte),
    decode reserved (b0 :: p0 :: p1 :: p2 :: bs) = .ok (i, rest) →
    i.operands.src1.val = 31 - (16 * (p2.getLsbD 3).toNat + 8 * (p1.getLsbD 6).toNat + 4 * (p1.getLsbD 5).toNat
      + 2 * (p1.getLsbD 4).toNat + (p1.getLsbD 3).toNat)

/-- R56, R59: with `mod = 11` the second source is the register `X ++ B ++ rm` (un-inverted); otherwise it is memory,
broadcast exactly when `EVEX.b = 1`. -/
def Obligations.SecondSourceFollowsModRM : Prop :=
  ∀ (reserved : ReservedImm8) (b0 p0 p1 p2 opc modrm : Byte) (bs : List Byte) (i : Instr) (rest : List Byte),
    decode reserved (b0 :: p0 :: p1 :: p2 :: opc :: modrm :: bs) = .ok (i, rest) →
    (modrm.toNat / 64 = 3 → ∃ n : VReg, i.operands.src2 = .reg n ∧
      n.val = 16 * (1 - (p0.getLsbD 6).toNat) + 8 * (1 - (p0.getLsbD 5).toNat) + modrm.toNat % 8) ∧
    (modrm.toNat / 64 ≠ 3 → p2.getLsbD 4 = false → ∃ a, i.operands.src2 = .mem a) ∧
    (modrm.toNat / 64 ≠ 3 → p2.getLsbD 4 = true → ∃ a, i.operands.src2 = .bcst a)

/-- R57: `aaa = 000` means no writemask, `aaa = n` names `k[n]` (the spec's general knowledge GK4), and the `z` bit is
0. -/
def Obligations.WritemaskIsFieldAaa : Prop :=
  ∀ (reserved : ReservedImm8) (b0 p0 p1 p2 : Byte) (bs : List Byte) (i : Instr) (rest : List Byte),
    decode reserved (b0 :: p0 :: p1 :: p2 :: bs) = .ok (i, rest) →
    (p2.toNat % 8 = 0 → i.operands.mask = none) ∧
    (p2.toNat % 8 ≠ 0 → ∃ n : KReg, i.operands.mask = some n ∧ n.val = p2.toNat % 8) ∧
    p2.getLsbD 7 = false

/-- R66 (the spec's decision D8): the predicate is `imm8[2:0]` in every case; bits 7:3 not all zero are refused under
`refuse` and do not matter under `ignore`. The immediate is the byte after the rest of the encoding, and a predicate's
number is its place in R80. -/
def Obligations.ReservedImmediateBits : Prop :=
  ∀ (i : Instr) (imm8 : Byte) (rest : List Byte), i.wf = true →
    let bytes := (encode i).dropLast ++ imm8 :: rest
    let predicates := [Predicate.eq, .lt, .le, .never, .neq, .nlt, .nle, .always]
    (∃ p, predicates[imm8.toNat % 8]? = some p ∧
      decode .ignore bytes = .ok (Instr.of i.op i.vl { i.operands with pred := p }, rest) ∧
      (imm8.toNat / 8 = 0 → decode .refuse bytes = .ok (Instr.of i.op i.vl { i.operands with pred := p }, rest))) ∧
    (imm8.toNat / 8 ≠ 0 → decode .refuse bytes = .error .reservedImm8)

/-- The effective address of a decoded memory operand is R58's pseudocode on its bytes, with R60's displacement and R61's
factor: 4 under broadcast, `VL/8` otherwise. (R58, R60 and R61 are the spec's general knowledge.) -/
def Obligations.EffectiveAddressFollowsTheBytes : Prop :=
  ∀ (reserved : ReservedImm8) (s : State) (b0 p0 p1 p2 opc modrm : Byte) (bs : List Byte) (i : Instr) (rest : List Byte),
    decode reserved (b0 :: p0 :: p1 :: p2 :: opc :: modrm :: bs) = .ok (i, rest) → modrm.toNat / 64 ≠ 3 →
    ∃ a, i.operands.src2 = (if p2.getLsbD 4 then .bcst a else .mem a) ∧
      operandAddress s i.vl i.operands a =
        addressFromBytes s p0 modrm bs i.length (if p2.getLsbD 4 then 4 else i.vl.bytes)

/-- Sanity of the decoder on words written out from 30_encoding.md (its vectors E1, E9, E11, E16 and E18 in
95_test_vectors.md). -/
def Obligations.SampleWordsDecode : Prop :=
  decode .refuse [0x62, 0xF3, 0x6D, 0x48, 0x1E, 0xCB, 0x01]
    = .ok (.vpcmpud512 ⟨1, none, 2, .reg 3, .lt⟩, []) ∧
  decode .refuse [0x62, 0xF3, 0x6D, 0x46, 0x1E, 0x7C, 0x8B, 0x04, 0x06]
    = .ok (.vpcmpud512 ⟨7, some 6, 18, .mem (.sib 3 (some 1) 2 (.disp8 4)), .nle⟩, []) ∧
  decode .refuse [0x62, 0xB3, 0x6D, 0x40, 0x1E, 0xD3, 0x02]
    = .ok (.vpcmpud512 ⟨2, none, 18, .reg 19, .le⟩, []) ∧
  decode .refuse [0x62, 0xF3, 0x6D, 0x48, 0x1E, 0x0C, 0x25, 0x00, 0x10, 0x00, 0x00, 0x07]
    = .ok (.vpcmpud512 ⟨1, none, 2, .mem (.sibNoBase none 0 0x1000), .always⟩, []) ∧
  decode .refuse [0x62, 0xF3, 0x6D, 0x08, 0x1F, 0xCB, 0x01]
    = .ok (.vpcmpd128 ⟨1, none, 2, .reg 3, .lt⟩, [])

/-! ### Comparison -/

/-- R80's table, by number, and its derived law that predicates 4 to 7 are the negations of 0 to 3. -/
def Obligations.PredicateTable : Prop :=
  (∀ a b : Int,
    (compareInts (.ofBits 0) a b = true ↔ a = b) ∧ (compareInts (.ofBits 1) a b = true ↔ a < b) ∧
    (compareInts (.ofBits 2) a b = true ↔ a ≤ b) ∧ compareInts (.ofBits 3) a b = false ∧
    (compareInts (.ofBits 4) a b = true ↔ a ≠ b) ∧ (compareInts (.ofBits 5) a b = true ↔ b ≤ a) ∧
    (compareInts (.ofBits 6) a b = true ↔ b < a) ∧ compareInts (.ofBits 7) a b = true) ∧
  ∀ (p : BitVec 3) (a b : Int), p.toNat < 4 →
    compareInts (.ofBits (p + 4)) a b = !compareInts (.ofBits p) a b

/-- R88's corner values of the unsigned order (the spec marks them derived). -/
def Obligations.UnsignedCornerValues : Prop :=
  ∀ x : Dword, u32 0x00000000 ≤ u32 x ∧ u32 x ≤ u32 0xFFFFFFFF ∧ u32 0x7FFFFFFF < u32 0x80000000 ∧
    compareElements .vpcmpud .lt x 0 = false ∧ compareElements .vpcmpud .le 0 x = true ∧
    compareElements .vpcmpud .nlt x 0 = true ∧
    (compareElements .vpcmpud .nle 0xFFFFFFFF x = true ↔ x ≠ 0xFFFFFFFF)

/-- R100: an element is read as two's complement (`s32(v) = u32(v)` when `v[31] = 0`, `u32(v) - 2^32` otherwise);
80000000h is the least value, 7FFFFFFFh the greatest, -1 is below 0. (Two's complement is the spec's decision D31.) -/
def Obligations.SignedReading : Prop :=
  (∀ v : Dword, s32 v = v.toInt ∧ (v.getLsbD 31 = false → s32 v = u32 v) ∧
    (v.getLsbD 31 = true → s32 v = u32 v - 2 ^ 32)) ∧
  (∀ v : Dword, s32 0x80000000 ≤ s32 v ∧ s32 v ≤ s32 0x7FFFFFFF) ∧
  s32 0x80000000 = -2147483648 ∧ s32 0x7FFFFFFF = 2147483647 ∧ s32 0xFFFFFFFF < s32 0x00000000

/-- R100: LT, LE, NLT, NLE differ between the signed and the unsigned instruction exactly on the elements whose two
operands' bits 31 differ; the other four predicates never differ (the spec marks this derived). -/
def Obligations.SignednessMattersOnlyOnBit31 : Prop :=
  ∀ a c : Dword,
    (∀ p ∈ [Predicate.lt, .le, .nlt, .nle],
      (compareElements .vpcmpd p a c ≠ compareElements .vpcmpud p a c ↔ a.getLsbD 31 ≠ c.getLsbD 31)) ∧
    (∀ p ∈ [Predicate.eq, .neq, .never, .always], compareElements .vpcmpd p a c = compareElements .vpcmpud p a c)

/-! ### Results, completion and frame -/

/-- R81 for the three forms `vpcmpud128`, `vpcmpud256`, `vpcmpud512`: whenever the form is executable it completes,
bit `j` of the destination is 1 exactly when `j < KL`, the writemask enables `j` and the unsigned comparison of
element `j` of the first source with element `j` of the second (or the one broadcast element) holds, `pc` advances by
the length, and nothing else changes. -/
def Obligations.VpcmpudWritesTheComparison : Prop :=
  CompletesWith Instr.vpcmpud128 u32 .v128 ∧ CompletesWith Instr.vpcmpud256 u32 .v256 ∧
    CompletesWith Instr.vpcmpud512 u32 .v512

/-- R101, R102, R103 for `vpcmpd128`, `vpcmpd256`, `vpcmpd512`: the same with the elements read as signed integers
(R100). -/
def Obligations.VpcmpdWritesTheComparison : Prop :=
  CompletesWith Instr.vpcmpd128 s32 .v128 ∧ CompletesWith Instr.vpcmpd256 s32 .v256 ∧
    CompletesWith Instr.vpcmpd512 s32 .v512

/-- An instruction (any of the six forms) completes exactly when it is executable: state enabled, features present,
registers exist, second source readable (R89, R111, R112, R34, R38; that a register at or above `NUM_ZMM` stops the
instruction is the model's choice, log entry 3). -/
def Obligations.CompletesExactlyWhenExecutable : Prop :=
  ∀ (i : Instr) (s : State), (∃ t, exec i s = .next t) ↔ executable s i.vl i.operands = true

/-- The frame of R86 for all six forms: an instruction that completes leaves every vector register, every general
register, every opmask register but the destination, EFLAGS, MXCSR, every byte of memory and every parameter as they
were. -/
def Obligations.FrameOfEveryForm : Prop :=
  ∀ (i : Instr) (s t : State), exec i s = .next t →
    (∀ n : VReg, readZmm t n = readZmm s n) ∧ t.zmm = s.zmm ∧ (∀ n : GReg, readGpr t n = readGpr s n) ∧
    (∀ n : KReg, n ≠ i.operands.dest → readK t n = readK s n) ∧
    t.eflags = s.eflags ∧ t.mxcsr = s.mxcsr ∧ (∀ a : Word, readByte t a = readByte s a) ∧ t.mem = s.mem ∧
    t.params = s.params

/-- R13, R18: EFLAGS and MXCSR are neither read nor written by any of the six forms: they are as before, and other
contents of them change nothing else of the outcome. -/
def Obligations.FlagsNeitherReadNorWritten : Prop :=
  ∀ (i : Instr) (s t : State) (e m : BitVec 32), exec i s = .next t →
    t.eflags = s.eflags ∧ t.mxcsr = s.mxcsr ∧
    exec i { s with eflags := e, mxcsr := m } = .next { t with eflags := e, mxcsr := m }

/-- R125, R12: the only change of `pc` is the sequential advance by the instruction's length, modulo 2^64, for all six
forms. -/
def Obligations.PcAdvancesByTheLength : Prop :=
  ∀ (i : Instr) (s t : State), exec i s = .next t →
    t.pc.toNat = (s.pc.toNat + i.length) % 2 ^ 64

/-- R85's closed form (marked derived there) and R87(a): under writemask `k[n]` the destination is the unmasked result AND
the writemask's value before; nothing merges, also when `n` is the destination. -/
def Obligations.WritemaskAndsTheResult : Prop :=
  ∀ (op : CmpOp) (vl : VecLen) (o : OpEnA) (n : KReg) (s t u : State),
    exec (Instr.of op vl { o with mask := some n }) s = .next t →
    exec (Instr.of op vl { o with mask := none }) s = .next u →
    readK t o.dest = readK u o.dest &&& readK s n

/-- R14, R85: of the opmask registers an instruction reads only the writemask, and of it only bits `KL-1:0`; the old
destination is never read. Changing everything else in the opmask registers changes nothing it does. -/
def Obligations.OnlyTheWritemaskIsRead : Prop :=
  ∀ (i : Instr) (s t : State) (k' : Vector Nat 8),
    (∀ n, i.operands.mask = some n → ∀ j, j < i.vl.kl → k'[n].testBit j = s.k[n].testBit j) →
    exec i s = .next t →
    exec i { s with k := k' } = .next { t with k := k'.set i.operands.dest t.k[i.operands.dest] }

/-- R17 (marked derived there): a form of vector length VL reads only bits `VL-1:0` of its source registers. -/
def Obligations.UpperSourceBitsAreIgnored : Prop :=
  ∀ (i : Instr) (s t : State) (z : List Vec),
    (∀ n : VReg, ∀ j, j < i.vl.bits → (readZmm { s with zmm := z } n).getLsbD j = (readZmm s n).getLsbD j) →
    exec i s = .next t → exec i { s with zmm := z } = .next { t with zmm := z }

/-- R32: an instruction reads no byte of memory but its operand's: 16, 32 or 64 bytes at `EA`, 4 under broadcast, none
with a register. Changing every other byte changes nothing it does. -/
def Obligations.OnlyTheOperandBytesAreRead : Prop :=
  ∀ (i : Instr) (s t : State) (m : Memory),
    (∀ a, (i.operands.src2 = .mem a ∨ i.operands.src2 = .bcst a) → ∀ j, j < operandBytes i.vl i.operands.src2 →
      readByte { s with mem := m } (operandAddress s i.vl i.operands a + BitVec.ofNat 64 j)
        = readByte s (operandAddress s i.vl i.operands a + BitVec.ofNat 64 j)) →
    exec i s = .next t → exec i { s with mem := m } = .next { t with mem := m }

/-- R11: general registers serve only to form the effective address: with a register second source their contents change
nothing an instruction does. -/
def Obligations.RegisterFormsIgnoreGeneralRegisters : Prop :=
  ∀ (i : Instr) (s t : State) (n : VReg) (g : Vector Word 16), i.operands.src2 = .reg n →
    exec i s = .next t → exec i { s with gpr := g } = .next { t with gpr := g }

/-- R87(b) (marked derived there): with one register as both sources, predicates 0, 2, 5, 7 give the writemask's low
KL bits and 1, 3, 4, 6 give 0. -/
def Obligations.SelfComparison : Prop :=
  ∀ (i : Instr) (s t : State), Params.wf s.params = true → i.operands.src2 = .reg i.operands.src1 →
    exec i s = .next t →
    (i.operands.pred ∈ [Predicate.eq, .le, .nlt, .always] → ∀ j,
      (readK t i.operands.dest).testBit j = (decide (j < i.vl.kl) && writemaskBit s i.operands.mask j)) ∧
    (i.operands.pred ∈ [Predicate.lt, .never, .neq, .nle] → readK t i.operands.dest = 0)

/-- R100: with predicate EQ, NEQ, FALSE or TRUE the signed instruction does exactly what the unsigned one does, at each
vector length (the spec marks this derived). -/
def Obligations.SignedAndUnsignedAgreeOnEquality : Prop :=
  ∀ (o : OpEnA) (s : State), o.pred ∈ [Predicate.eq, .neq, .never, .always] →
    exec (.vpcmpd128 o) s = exec (.vpcmpud128 o) s ∧ exec (.vpcmpd256 o) s = exec (.vpcmpud256 o) s ∧
    exec (.vpcmpd512 o) s = exec (.vpcmpud512 o) s

/-- R81: a full memory operand and a broadcast operand write what the register form writes when the register holds the
same elements. -/
def Obligations.MemoryFormsAgreeWithTheRegisterForm : Prop :=
  ∀ (op : CmpOp) (vl : VecLen) (o : OpEnA) (a : AddrMode) (n : VReg) (s t u : State),
    exec (Instr.of op vl { o with src2 := .reg n }) s = .next u →
    (exec (Instr.of op vl { o with src2 := .mem a }) s = .next t →
      sourceReg s vl n = memRead s (operandAddress s vl { o with src2 := .mem a } a) vl.bytes → t.k = u.k) ∧
    (exec (Instr.of op vl { o with src2 := .bcst a }) s = .next t →
      (∀ j, j < vl.kl →
        (readZmm s n).extractLsb' (32 * j) 32 = memRead s (operandAddress s vl { o with src2 := .bcst a } a) 4) →
      t.k = u.k)

/-! ### Faults and refusals -/

/-- R111 (the spec's decision D14): when `STATE_ENABLED` is false every instruction in scope ends in `raise UD`. -/
def Obligations.DisabledStateRaisesUD : Prop :=
  ∀ (i : Instr) (s : State), s.params.stateEnabled = false → exec i s = .fault (.ud s.pc)

/-- R112: a 512-bit form ends in `raise UD` unless `HAS_AVX512F or HAS_AVX10_1`, a 128-bit or 256-bit form unless
`(HAS_AVX512VL and HAS_AVX512F) or HAS_AVX10_1`; with the condition true and the state enabled it does not. (That a false
condition gives UD is the spec's general knowledge GK30.) -/
def Obligations.MissingFeaturesRaiseUD : Prop :=
  ∀ (i : Instr) (s : State),
    let cond := if i.vl = .v512 then s.params.hasAvx512f = true ∨ s.params.hasAvx10_1 = true
      else (s.params.hasAvx512vl = true ∧ s.params.hasAvx512f = true) ∨ s.params.hasAvx10_1 = true
    (¬ cond → exec i s = .fault (.ud s.pc)) ∧
    (cond → s.params.stateEnabled = true → exec i s ≠ .fault (.ud s.pc))

/-- R34, R37, R114: a memory operand that is not accessible ends an otherwise executable instruction in
`MemFault(EA, n)`, whatever the writemask holds: all `VL/8` bytes, or the 4 of a broadcast, must be accessible. -/
def Obligations.InaccessibleOperandRaisesMemFault : Prop :=
  ∀ (i : Instr) (s : State) (a : AddrMode),
    let ea := operandAddress s i.vl i.operands a
    s.params.stateEnabled = true → hasFeatures s.params i.vl = true → i.operands.src1.val < s.params.numZmm →
    (i.operands.src2 = .mem a → accessible s.params ea i.vl.bytes = false →
      exec i s = .fault (.memFault ea i.vl.bytes s.pc)) ∧
    (i.operands.src2 = .bcst a → s.params.acCheck = false ∨ ea.toNat % 4 = 0 → accessible s.params ea 4 = false →
      exec i s = .fault (.memFault ea 4 s.pc))

/-- R115 (the spec's decision D3): AC is raised only when `AC_CHECK` is true and a 4-byte broadcast read is at an
address not a multiple of 4; full reads never raise it. -/
def Obligations.AlignmentCheckOnlyOnBroadcast : Prop :=
  ∀ (i : Instr) (s : State) (pc : Word), exec i s = .fault (.ac pc) →
    s.params.acCheck = true ∧
      ∃ a, i.operands.src2 = .bcst a ∧ (operandAddress s i.vl i.operands a).toNat % 4 ≠ 0

/-- R38, R117: under `AC_CHECK` a broadcast read at an address not a multiple of 4 ends an otherwise executable
instruction in `raise AC`, whether or not the bytes are accessible. -/
def Obligations.MisalignedBroadcastRaisesAC : Prop :=
  ∀ (i : Instr) (s : State) (a : AddrMode),
    s.params.stateEnabled = true → hasFeatures s.params i.vl = true → i.operands.src1.val < s.params.numZmm →
    i.operands.src2 = .bcst a → s.params.acCheck = true → (operandAddress s i.vl i.operands a).toNat % 4 ≠ 0 →
    exec i s = .fault (.ac s.pc)

/-- R110, R114, R118: a fault of a step is a MemFault of the fetch, or one of the decoded instruction: UD, AC of its
broadcast operand, or MemFault of its memory operand. It names the `pc` and the inaccessible range. (That a fetch fault
names 7 bytes where the first 7 are not accessible is log entry 12's reading, the length rule on any bytes log entry
13's.) -/
def Obligations.FaultsNameTheirPcAndAccess : Prop :=
  ∀ (s : State) (f : Fault), step s = .fault f →
    (f = .memFault s.pc 7 s.pc ∧ accessible s.params s.pc 7 = false) ∨
    (f = .memFault s.pc (lengthAtPc s) s.pc ∧ accessible s.params s.pc (lengthAtPc s) = false) ∨
    ∃ i rest, decode s.params.reservedImm8 (readBytes s s.pc (lengthAtPc s)) = .ok (i, rest) ∧
      (f = .ud s.pc ∨ (f = .ac s.pc ∧ ∃ a, i.operands.src2 = .bcst a) ∨
        ∃ a, (i.operands.src2 = .mem a ∨ i.operands.src2 = .bcst a) ∧
          f = .memFault (operandAddress s i.vl i.operands a) (operandBytes i.vl i.operands.src2) s.pc ∧
          accessible s.params (operandAddress s i.vl i.operands a) (operandBytes i.vl i.operands.src2) = false)

/-- A register at or above `NUM_ZMM` stops an instruction by name (the model's choice, log entry 3: R8 gives such a
register no meaning). -/
def Obligations.MissingVectorRegisterIsRefused : Prop :=
  ∀ (i : Instr) (s : State), s.params.stateEnabled = true → hasFeatures s.params i.vl = true →
    (s.params.numZmm ≤ i.operands.src1.val →
      exec i s = .refused (.noSuchVectorRegister i.operands.src1)) ∧
    (∀ n, i.operands.src1.val < s.params.numZmm → i.operands.src2 = .reg n → s.params.numZmm ≤ n.val →
      exec i s = .refused (.noSuchVectorRegister n))

/-! ### The step and the whole machine -/

/-- A step runs the decoded instruction: `step` is `exec` of what the bytes at `pc` decode to, and adds nothing (R89). -/
def Obligations.StepRunsTheDecodedInstruction : Prop :=
  ∀ (s : State) (i : Instr) (rest : List Byte), accessible s.params s.pc (lengthAtPc s) = true →
    decode s.params.reservedImm8 (readBytes s s.pc (lengthAtPc s)) = .ok (i, rest) → step s = exec i s

/-- Where the encoding of a well-formed instruction stands at `pc` and is accessible, the step is that instruction's
(R50, R64, R89). -/
def Obligations.EncodedInstructionAtPcRuns : Prop :=
  ∀ (s : State) (i : Instr), i.wf = true → accessible s.params s.pc i.length = true →
    readBytes s s.pc i.length = encode i → step s = exec i s

/-- R89 steps 1 and 2, R117: a fetch whose bytes are not accessible faults (naming 7 bytes where the first 7 are not: the
model's reading, log entry 12; by the length rule on any bytes, those of another instruction too: log entry 13);
otherwise a refusal of the decoder ends the step as refused. -/
def Obligations.FetchFaultsBeforeDecoding : Prop :=
  ∀ s : State,
    (accessible s.params s.pc 7 = false → step s = .fault (.memFault s.pc 7 s.pc)) ∧
    (accessible s.params s.pc 7 = true → accessible s.params s.pc (lengthAtPc s) = false →
      step s = .fault (.memFault s.pc (lengthAtPc s) s.pc)) ∧
    (∀ why, accessible s.params s.pc (lengthAtPc s) = true →
      decode s.params.reservedImm8 (readBytes s s.pc (lengthAtPc s)) = .error why →
      step s = .refused (.undecodable why))

/-- R71: the step refuses by name only: with a refusal of R71's list, never `truncated` and never an instruction without a
meaning, or with a vector register the machine lacks. -/
def Obligations.RefusalsOfAStep : Prop :=
  ∀ (s : State) (r : Refusal), step s = .refused r →
    (∃ why, why ∈ [DecodeRefusal.notInScope, .reservedImm8, .bWithRegister, .zSet, .regExtension, .unusedExtensionBit] ∧
      r = .undecodable why) ∨
    ∃ n : VReg, s.params.numZmm ≤ n.val ∧ r = .noSuchVectorRegister n

/-- An instruction placed at `pc` as `withFetchWord` places it is the one the next step runs (the model's own
operation, log entry 24), from any state with canonical memory under the default `RESERVED_IMM8`. -/
def Obligations.PlacedInstructionRunsNext : Prop :=
  ∀ (s : State) (nbits w : Nat) (i : Instr), Memory.wf s.mem = true → s.params.reservedImm8 = .refuse →
    decodeTableWord nbits w = some i →
    step (s.withFetchWord nbits w) = exec i (s.withFetchWord nbits w)

/-- R86, R12, R125 for the whole machine: a step that completes changes one opmask register and the `pc`, which
advances by 7, 8, 9, 11 or 12 (R64), and nothing else. The register's new value is below 2^16, since its bits from KL up
are 0 (R14, R81) and KL is at most 16 (R5). -/
def Obligations.StepChangesOneOpmaskAndPc : Prop :=
  ∀ s t : State, step s = .next t →
    ∃ (d : KReg) (r len : Nat), len ∈ [7, 8, 9, 11, 12] ∧
      t = { s with k := s.k.set d r, pc := s.pc + BitVec.ofNat 64 len } ∧ r < 2 ^ 16

/-- Every step keeps the machine's invariant: parameters in range, every opmask register a `MAX_KL`-bit value (R14),
`NUM_ZMM` vector registers (R16), memory in canonical form. (The holding form is the model's, log entries 2, 3 and
6.) -/
def Obligations.StepKeepsTheInvariant : Prop :=
  ∀ s t : State, s.wf = true → step s = .next t → t.wf = true

/-- R132, R133 (the spec's decision D23): where the encodings of well-formed instructions stand back to back from
`pc`, the machine either completes all of them, one a step, and `pc` is at their end, or completes some and stops as
the next one stops. Nothing but opmask registers and `pc` has changed. -/
def Obligations.StraightLineRunEndsOrStops : Prop :=
  ∀ (is : List Instr) (s : State), (∀ i ∈ is, i.wf = true) → programPlaced s s.pc (is.flatMap encode) = true →
    (∃ t, runSteps is.length s = .next t ∧ atEnd t s.pc (is.flatMap encode).length = true ∧
      t = { s with k := t.k, pc := t.pc }) ∨
    (∃ before i after t, is = before ++ i :: after ∧ runSteps before.length s = .next t ∧
      atEnd t s.pc (before.flatMap encode).length = true ∧ t = { s with k := t.k, pc := t.pc } ∧
      runSteps is.length s = exec i t ∧ ∀ u, exec i t ≠ .next u)

/-- The reset state meets the invariant. -/
def Obligations.ResetMeetsTheInvariant : Prop := State.reset.wf = true

/-- What reset leaves. The spec's R23 gives these register values as unverified general knowledge and R6 the parameters'
defaults; that reset uses them, RDX = 0, zero memory and the whole space accessible are the model's choices (log entries 1
and 5 to 10). -/
def Obligations.ResetHoldsTheNamedValues : Prop :=
  State.reset.zmm.length = 32 ∧ (∀ n : VReg, readZmm State.reset n = 0#512) ∧ (∀ n : KReg, readK State.reset n = 0) ∧
  (∀ n : GReg, readGpr State.reset n = 0#64) ∧ State.reset.pc = 0xFFFFFFF0#64 ∧
  State.reset.eflags = 0x00000002#32 ∧ State.reset.mxcsr = 0x1F80#32 ∧
  (∀ a : Word, readByte State.reset a = 0#8 ∧ byteAccessible State.reset.params a = true) ∧
  State.reset.params.maxKL = 64 ∧ State.reset.params.numZmm = 32 ∧ State.reset.params.hasAvx512f = true ∧
  State.reset.params.hasAvx512vl = true ∧ State.reset.params.hasAvx10_1 = true ∧
  State.reset.params.stateEnabled = true ∧ State.reset.params.reservedImm8 = .refuse ∧
  State.reset.params.acCheck = false

/-! ### Memory -/

/-- R30 (the spec's decision D2): bits `8i+7:8i` of `MemRead(addr, n)` are the byte at `(addr + i) mod 2^64`;
instruction bytes are fetched in ascending address order; a 32-bit displacement is little-endian; and the doubleword a
4-byte read at `addr + 4j` gives is element `j` of a wider read at `addr` (R31). -/
def Obligations.MemReadIsLittleEndian : Prop :=
  ∀ (s : State) (addr : Word) (n : Nat),
    (∀ i b, i < n → b < 8 →
      (memRead s addr n).getLsbD (8 * i + b) = (readByte s (BitVec.ofNat 64 (addr.toNat + i))).getLsbD b) ∧
    (∀ i, i < n → (readBytes s addr n)[i]? = some (readByte s (BitVec.ofNat 64 (addr.toNat + i)))) ∧
    (∀ d0 d1 d2 d3 : Byte, ∃ d : BitVec 32, takeDisp 4 [d0, d1, d2, d3] = some (.disp32 d, []) ∧
      d.toNat = d0.toNat + 256 * d1.toNat + 65536 * d2.toNat + 16777216 * d3.toNat) ∧
    (∀ j, 4 * j + 4 ≤ n → (memRead s addr n).extractLsb' (32 * j) 32 = memRead s (addr + BitVec.ofNat 64 (4 * j)) 4)

/-- The primitives of R8 agree: what `MemWrite` stores `MemRead` gives back, every byte outside the written range is as
before, and canonical memory stays so (the canonical form is the model's, log entry 6). -/
def Obligations.WrittenBytesReadBack : Prop :=
  ∀ (s : State) (addr : Word) (n v : Nat), Memory.wf s.mem = true → n ≤ 2 ^ 64 →
    memRead (memWrite s addr n v) addr n = BitVec.ofNat (8 * n) v ∧
    (∀ b : Word, (∀ i, i < n → b ≠ addr + BitVec.ofNat 64 i) → readByte (memWrite s addr n v) b = readByte s b) ∧
    Memory.wf (memWrite s addr n v).mem = true
end

