-- ==== Sys2Proof/Laws/State.lean ====
section
/-! SUPPORT. One lemma per field of the state and update of it, so that no proof unfolds a record update. -/

namespace Sys2Proof.Machine

@[simp] theorem advancePc_zmm (s : State) (n : Nat) : (advancePc s n).zmm = s.zmm := rfl
@[simp] theorem advancePc_k (s : State) (n : Nat) : (advancePc s n).k = s.k := rfl
@[simp] theorem advancePc_gpr (s : State) (n : Nat) : (advancePc s n).gpr = s.gpr := rfl
@[simp] theorem advancePc_pc (s : State) (n : Nat) : (advancePc s n).pc = s.pc + BitVec.ofNat 64 n := rfl
@[simp] theorem advancePc_eflags (s : State) (n : Nat) : (advancePc s n).eflags = s.eflags := rfl
@[simp] theorem advancePc_mxcsr (s : State) (n : Nat) : (advancePc s n).mxcsr = s.mxcsr := rfl
@[simp] theorem advancePc_mem (s : State) (n : Nat) : (advancePc s n).mem = s.mem := rfl
@[simp] theorem advancePc_params (s : State) (n : Nat) : (advancePc s n).params = s.params := rfl

@[simp] theorem writeK_zmm (s : State) (n : KReg) (v : Nat) : (writeK s n v).zmm = s.zmm := rfl
@[simp] theorem writeK_k (s : State) (n : KReg) (v : Nat) :
    (writeK s n v).k = s.k.set n (opmaskBits s.params.maxKL v) := rfl
@[simp] theorem writeK_gpr (s : State) (n : KReg) (v : Nat) : (writeK s n v).gpr = s.gpr := rfl
@[simp] theorem writeK_pc (s : State) (n : KReg) (v : Nat) : (writeK s n v).pc = s.pc := rfl
@[simp] theorem writeK_eflags (s : State) (n : KReg) (v : Nat) : (writeK s n v).eflags = s.eflags := rfl
@[simp] theorem writeK_mxcsr (s : State) (n : KReg) (v : Nat) : (writeK s n v).mxcsr = s.mxcsr := rfl
@[simp] theorem writeK_mem (s : State) (n : KReg) (v : Nat) : (writeK s n v).mem = s.mem := rfl
@[simp] theorem writeK_params (s : State) (n : KReg) (v : Nat) : (writeK s n v).params = s.params := rfl

@[simp] theorem writeByte_zmm (s : State) (a : Word) (v : Byte) : (writeByte s a v).zmm = s.zmm := rfl
@[simp] theorem writeByte_k (s : State) (a : Word) (v : Byte) : (writeByte s a v).k = s.k := rfl
@[simp] theorem writeByte_gpr (s : State) (a : Word) (v : Byte) : (writeByte s a v).gpr = s.gpr := rfl
@[simp] theorem writeByte_pc (s : State) (a : Word) (v : Byte) : (writeByte s a v).pc = s.pc := rfl
@[simp] theorem writeByte_eflags (s : State) (a : Word) (v : Byte) : (writeByte s a v).eflags = s.eflags := rfl
@[simp] theorem writeByte_mxcsr (s : State) (a : Word) (v : Byte) : (writeByte s a v).mxcsr = s.mxcsr := rfl
@[simp] theorem writeByte_mem (s : State) (a : Word) (v : Byte) :
    (writeByte s a v).mem = memInsert s.mem a.toNat v := rfl
@[simp] theorem writeByte_params (s : State) (a : Word) (v : Byte) : (writeByte s a v).params = s.params := rfl

@[simp] theorem afterCompare_zmm (s : State) (o : OpEnA) (r : Nat) : (afterCompare s o r).zmm = s.zmm := rfl
@[simp] theorem afterCompare_k (s : State) (o : OpEnA) (r : Nat) : (afterCompare s o r).k = s.k.set o.dest r := rfl
@[simp] theorem afterCompare_gpr (s : State) (o : OpEnA) (r : Nat) : (afterCompare s o r).gpr = s.gpr := rfl
@[simp] theorem afterCompare_pc (s : State) (o : OpEnA) (r : Nat) :
    (afterCompare s o r).pc = s.pc + BitVec.ofNat 64 o.length := rfl
@[simp] theorem afterCompare_eflags (s : State) (o : OpEnA) (r : Nat) :
    (afterCompare s o r).eflags = s.eflags := rfl
@[simp] theorem afterCompare_mxcsr (s : State) (o : OpEnA) (r : Nat) : (afterCompare s o r).mxcsr = s.mxcsr := rfl
@[simp] theorem afterCompare_mem (s : State) (o : OpEnA) (r : Nat) : (afterCompare s o r).mem = s.mem := rfl
@[simp] theorem afterCompare_params (s : State) (o : OpEnA) (r : Nat) :
    (afterCompare s o r).params = s.params := rfl

end Sys2Proof.Machine
end

