-- ==== Sys2Proof/Laws/Flags.lean ====
section
/-! SUPPORT. The mask of results, the `MAX_KL` bits of an opmask register, and the elements. -/

namespace Sys2Proof.Machine

/-- The result mask bit by bit (R81): bit `j` below `kl`, 0 from `kl` up. -/
theorem testBit_maskOf (bit : Nat → Bool) : ∀ (kl j : Nat), (maskOf bit kl).testBit j = (decide (j < kl) && bit j)
  | 0, j => by simp [maskOf]
  | kl + 1, j => by
    rw [maskOf, Nat.testBit_or, testBit_maskOf bit kl]
    by_cases hj : j = kl
    · subst hj
      cases hb : bit j <;> simp
    · have h : decide (j < kl + 1) = decide (j < kl) := decide_eq_decide.2 (by omega)
      rw [h]
      cases bit kl <;> simp [Ne.symm hj]

/-- `maskOf` depends only on the bits below `kl`. -/
theorem maskOf_congr {f g : Nat → Bool} : ∀ {kl : Nat}, (∀ j, j < kl → f j = g j) → maskOf f kl = maskOf g kl
  | 0, _ => rfl
  | kl + 1, h => by rw [maskOf, maskOf, maskOf_congr fun j hj => h j (by omega), h kl (by omega)]

/-- The low `MAX_KL` bits, bit by bit. -/
@[simp] theorem testBit_opmaskBits (w v j : Nat) : (opmaskBits w v).testBit j = (decide (j < w) && v.testBit j) :=
  Nat.testBit_mod_two_pow v w j

/-- A read of an opmask register bit by bit. -/
theorem testBit_readK (s : State) (n : KReg) (j : Nat) :
    (readK s n).testBit j = (decide (j < s.params.maxKL) && s.k[n].testBit j) := testBit_opmaskBits ..

/-- What an opmask register holds is a `MAX_KL`-bit value. -/
theorem opmaskBits_lt (w v : Nat) : opmaskBits w v < 2 ^ w := Nat.mod_lt _ (Nat.two_pow_pos w)

/-- A value of at most `MAX_KL` bits is its own low `MAX_KL` bits. -/
theorem opmaskBits_of_lt {w v : Nat} (h : v < 2 ^ w) : opmaskBits w v = v := Nat.mod_eq_of_lt h

/-- Cutting a value to `MAX_KL` bits twice is cutting it once. -/
@[simp] theorem opmaskBits_opmaskBits (w v : Nat) : opmaskBits w (opmaskBits w v) = opmaskBits w v :=
  opmaskBits_of_lt (opmaskBits_lt w v)

/-- KL is at most 16, the least `MAX_KL` (R6). -/
theorem kl_le_sixteen : ∀ vl : VecLen, vl.kl ≤ 16
  | .v128 => by decide
  | .v256 => by decide
  | .v512 => by decide

/-- VL is KL doublewords (R5). -/
theorem bits_eq : ∀ vl : VecLen, vl.bits = 32 * vl.kl
  | .v128 => rfl
  | .v256 => rfl
  | .v512 => rfl

/-- A source register's element below KL is the wide register's (R17). -/
theorem element_sourceReg (s : State) {vl : VecLen} (n : VReg) {j : Nat} (hj : j < vl.kl) :
    element (sourceReg s vl n) j = (readZmm s n).extractLsb' (32 * j) 32 := by
  refine BitVec.eq_of_getLsbD_eq fun i hi => ?_
  have := bits_eq vl
  simp [element, sourceReg, hi, show 32 * j + i < vl.bits by omega]

/-- `s32` is the two's-complement reading (R100). -/
theorem s32_eq_toInt (v : Dword) : s32 v = v.toInt := by
  rw [s32, BitVec.toInt_eq_msb_cond, BitVec.msb_eq_getLsbD_last]
  split <;> rfl

end Sys2Proof.Machine
end

