-- ==== Sys2Proof/Laws/Memory.lean ====
section
/-! SUPPORT. Memory: every operation keeps the canonical form, a read after a write, and what each read depends on
(20_memory.md R30, R33). -/

namespace Sys2Proof.Machine

/-! ### The canonical form -/

theorem memWfFrom_mono {lo lo' : Nat} (h : lo' ≤ lo) : ∀ {m : Memory}, memWfFrom lo m = true → memWfFrom lo' m = true
  | [], _ => rfl
  | (_, _) :: _, hm => by
    simp only [memWfFrom, Bool.and_eq_true, decide_eq_true_eq] at hm ⊢
    exact ⟨⟨⟨h.trans hm.1.1.1, hm.1.1.2⟩, hm.1.2⟩, hm.2⟩

/-- In canonical memory an address below the first listed one reads as unlisted. -/
theorem memLookup_below {lo : Nat} : ∀ {m : Memory} {a : Nat}, memWfFrom lo m = true → a < lo → memLookup m a = unlistedByte
  | [], _, _, _ => rfl
  | (b, v) :: m, a, hm, ha => by
    simp only [memWfFrom, Bool.and_eq_true, decide_eq_true_eq] at hm
    have hb : b ≠ a := by omega
    rw [memLookup, if_neg hb]
    exact memLookup_below hm.2 (by omega)

theorem memInsert_wf {a : Nat} {v : Byte} (ha : a < 2 ^ 64) :
    ∀ {m : Memory} {lo : Nat}, lo ≤ a → memWfFrom lo m = true → memWfFrom lo (memInsert m a v) = true
  | [], lo, hlo, _ => by
    by_cases hv : v = unlistedByte <;> simp [memInsert, memWfFrom, hv, hlo]
    exact ha
  | (b, w) :: m, lo, hlo, hm => by
    have hm' := hm
    simp only [memWfFrom, Bool.and_eq_true, decide_eq_true_eq] at hm
    obtain ⟨⟨⟨h1, h2⟩, h3⟩, h4⟩ := hm
    rw [memInsert]
    split
    · split
      · exact hm'
      · rename_i hlt hv
        simp only [memWfFrom, Bool.and_eq_true, decide_eq_true_eq]
        exact ⟨⟨⟨hlo, ha⟩, hv⟩, ⟨⟨by omega, h2⟩, h3⟩, h4⟩
    · split
      · split
        · exact memWfFrom_mono (by omega) h4
        · rename_i hlt heq hv
          simp only [memWfFrom, Bool.and_eq_true, decide_eq_true_eq]
          exact ⟨⟨⟨hlo, ha⟩, hv⟩, heq ▸ h4⟩
      · simp only [memWfFrom, Bool.and_eq_true, decide_eq_true_eq]
        exact ⟨⟨⟨h1, h2⟩, h3⟩, memInsert_wf ha (by omega) h4⟩

theorem memLookup_memInsert {a b : Nat} {v : Byte} :
    ∀ {m : Memory} {lo : Nat}, memWfFrom lo m = true → memLookup (memInsert m a v) b = if b = a then v else memLookup m b
  | [], _, _ => by
    by_cases hv : v = unlistedByte <;> by_cases hb : a = b <;> simp [memInsert, memLookup, hv, hb, eq_comm (a := b)]
  | (c, w) :: m, lo, hm => by
    simp only [memWfFrom, Bool.and_eq_true, decide_eq_true_eq] at hm
    obtain ⟨⟨⟨h1, h2⟩, h3⟩, h4⟩ := hm
    rw [memInsert]
    split
    · rename_i hlt
      split
      · rename_i hv
        split
        · rename_i hb
          subst hb
          rw [memLookup, if_neg (by omega), memLookup_below h4 (by omega), hv]
        · rfl
      · simp only [memLookup, eq_comm]
    · split
      · rename_i heq
        subst heq
        split
        · rename_i hv
          split
          · rename_i hb
            rw [hb, memLookup_below h4 (by omega), hv]
          · rw [memLookup, if_neg (by omega)]
        · by_cases hb : b = a
          · simp [memLookup, hb]
          · simp [memLookup, hb, Ne.symm hb]
      · rename_i hlt hne
        rw [memLookup, memLookup]
        split
        · rename_i hc
          rw [if_neg (by omega)]
        · exact memLookup_memInsert h4

/-- Storing a byte keeps memory canonical. -/
theorem writeByte_wf {s : State} (a : Word) (v : Byte) (h : Memory.wf s.mem = true) :
    Memory.wf (writeByte s a v).mem = true :=
  memInsert_wf a.isLt (Nat.zero_le _) h

/-- A byte read after a byte store. -/
theorem readByte_writeByte {s : State} (a b : Word) (v : Byte) (h : Memory.wf s.mem = true) :
    readByte (writeByte s a v) b = if b = a then v else readByte s b := by
  simp only [readByte, writeByte_mem, memLookup_memInsert h, BitVec.toNat_inj]

/-- `MemWrite` keeps memory canonical. -/
theorem memWrite_wf : ∀ (n : Nat) {s : State} (a : Word) (v : Nat), Memory.wf s.mem = true →
    Memory.wf (memWrite s a n v).mem = true
  | 0, _, _, _, h => h
  | n + 1, _, a, v, h => memWrite_wf n (a + 1#64) (v / 256) (writeByte_wf a _ h)

/-- The memory of the reset state is canonical. -/
theorem reset_mem_wf : Memory.wf State.reset.mem = true := rfl

/-! ### `MemWrite` touches memory only -/

theorem memWrite_frame : ∀ (n : Nat) (s : State) (a : Word) (v : Nat),
    memWrite s a n v = { s with mem := (memWrite s a n v).mem }
  | 0, _, _, _ => rfl
  | n + 1, s, a, v => by
    rw [memWrite, memWrite_frame n]
    rfl

/-! ### What the reads depend on -/

/-- `readBytes` gives as many bytes as it is asked for. -/
@[simp] theorem readBytes_length (s : State) : ∀ (n : Nat) (a : Word), (readBytes s a n).length = n
  | 0, _ => rfl
  | n + 1, a => congrArg (· + 1) (readBytes_length s n (a + 1#64))

theorem word_add_succ (a : Word) (i : Nat) : a + 1#64 + BitVec.ofNat 64 i = a + BitVec.ofNat 64 (i + 1) := by
  rw [BitVec.add_assoc, BitVec.add_comm 1#64, BitVec.ofNat_add]

/-- Byte `i` of a fetched list is the byte at `a + i`. -/
theorem readBytes_getElem? (s : State) : ∀ (n : Nat) (a : Word) (i : Nat), i < n →
    (readBytes s a n)[i]? = some (readByte s (a + BitVec.ofNat 64 i))
  | 0, _, _, h => absurd h (Nat.not_lt_zero _)
  | n + 1, a, 0, _ => by simp [readBytes]
  | n + 1, a, i + 1, h => by
    rw [readBytes, List.getElem?_cons_succ, readBytes_getElem? s n _ i (by omega), word_add_succ]

/-- The reads of one range agree in two states whose bytes there agree. -/
theorem memRead_congr {s t : State} : ∀ (n : Nat) (a : Word),
    (∀ i, i < n → readByte s (a + BitVec.ofNat 64 i) = readByte t (a + BitVec.ofNat 64 i)) →
    memRead s a n = memRead t a n
  | 0, _, _ => rfl
  | n + 1, a, h => by
    have h0 : readByte s a = readByte t a := by simpa using h 0 (by omega)
    have ih := memRead_congr n (a + 1#64) fun i hi => by
      simpa only [word_add_succ] using h (i + 1) (by omega)
    rw [memRead, memRead, h0, ih]

theorem readBytes_congr {s t : State} : ∀ (n : Nat) (a : Word),
    (∀ i, i < n → readByte s (a + BitVec.ofNat 64 i) = readByte t (a + BitVec.ofNat 64 i)) →
    readBytes s a n = readBytes t a n
  | 0, _, _ => rfl
  | n + 1, a, h => by
    have h0 : readByte s a = readByte t a := by simpa using h 0 (by omega)
    have ih := readBytes_congr n (a + 1#64) fun i hi => by
      simpa only [word_add_succ] using h (i + 1) (by omega)
    rw [readBytes, readBytes, h0, ih]

/-- The bytes of a range are those of its two parts. -/
theorem readBytes_add (s : State) : ∀ (m n : Nat) (a : Word),
    readBytes s a (m + n) = readBytes s a m ++ readBytes s (a + BitVec.ofNat 64 m) n
  | 0, n, a => by simp [readBytes]
  | m + 1, n, a => by
    rw [show m + 1 + n = m + n + 1 by omega, readBytes, readBytes, readBytes_add s m n, word_add_succ, List.cons_append]

/-! ### Admission -/

/-- `Accessible(a, n)` asks for each byte of the range. -/
theorem accessible_iff (p : Params) : ∀ (n : Nat) (a : Word),
    accessible p a n = true ↔ ∀ i, i < n → byteAccessible p (a + BitVec.ofNat 64 i) = true
  | 0, _ => by simp [accessible]
  | n + 1, a => by
    rw [accessible, Bool.and_eq_true, accessible_iff p n]
    constructor
    · rintro ⟨h0, h⟩ i hi
      cases i with
      | zero => simpa using h0
      | succ i => simpa only [word_add_succ] using h i (by omega)
    · intro h
      refine ⟨by simpa using h 0 (by omega), fun i hi => ?_⟩
      simpa only [word_add_succ] using h (i + 1) (by omega)

/-- A range is accessible when its two parts are. -/
theorem accessible_add (p : Params) : ∀ (m n : Nat) (a : Word),
    accessible p a (m + n) = (accessible p a m && accessible p (a + BitVec.ofNat 64 m) n)
  | 0, n, a => by simp [accessible]
  | m + 1, n, a => by
    rw [show m + 1 + n = m + n + 1 by omega, accessible, accessible, accessible_add p m n, word_add_succ, Bool.and_assoc]

/-- A shorter range of an accessible one is accessible. -/
theorem accessible_mono {p : Params} {a : Word} {m n : Nat} (h : m ≤ n) (ha : accessible p a n = true) :
    accessible p a m = true :=
  (accessible_iff p m a).2 fun i hi => (accessible_iff p n a).1 ha i (by omega)

/-- `makeAccessible` makes the range accessible. -/
theorem accessible_makeAccessible {p : Params} {a : Word} {n : Nat} (hn : n < 2 ^ 64) :
    accessible (makeAccessible p a n) a n = true := by
  unfold makeAccessible
  split
  · assumption
  · refine (accessible_iff _ _ _).2 fun i hi => ?_
    have ha := a.isLt
    have hv : (a + BitVec.ofNat 64 i).toNat = (a.toNat + i) % 2 ^ 64 := by simp [BitVec.toNat_add]
    simp only [byteAccessible, List.any_cons, Region.holds, hv, Bool.or_eq_true, Bool.and_eq_true, decide_eq_true_eq]
    omega

/-- `makeAccessible` changes nothing but `Accessible`. -/
theorem makeAccessible_frame (p : Params) (a : Word) (n : Nat) :
    makeAccessible p a n = { p with accessible := (makeAccessible p a n).accessible } := by
  unfold makeAccessible
  split <;> rfl

end Sys2Proof.Machine
end

