-- ==== Sys2Proof/Laws/Compare.lean ====
section
/-! SUPPORT. What each shared operation of the instructions can do, said once. -/

namespace Sys2Proof.Machine

/-! ### Results -/

@[simp] theorem thenDo_next {α β : Type} (a : α) (f : α → Result β) :
    Result.thenDo (Host.Outcome.next a) f = f a := rfl
@[simp] theorem thenDo_fault {α β : Type} (x : Fault) (f : α → Result β) :
    Result.thenDo (Host.Outcome.fault x) f = .fault x := rfl
@[simp] theorem thenDo_refused {α β : Type} (x : Refusal) (f : α → Result β) :
    Result.thenDo (Host.Outcome.refused x) f = .refused x := rfl

/-- A chained operation that goes on did so from a value. -/
theorem thenDo_eq_next {α β : Type} {r : Result α} {f : α → Result β} {b : β} (h : r.thenDo f = .next b) :
    ∃ a, r = .next a ∧ f a = .next b := by
  cases r with
  | next a => exact ⟨a, rfl, h⟩
  | fault x => cases h
  | refused x => cases h

/-! ### The operands -/

/-- `loadBytes` reads what is accessible and faults on the rest (R34). -/
theorem loadBytes_cases (s : State) (a : Word) (n : Nat) :
    (accessible s.params a n = true ∧ loadBytes s a n = .next (memRead s a n)) ∨
    (accessible s.params a n = false ∧ loadBytes s a n = .fault (.memFault a n s.pc)) := by
  unfold loadBytes raiseMemFault raiseFault
  cases accessible s.params a n <;> simp

/-- `loadBroadcast` checks alignment first, then admission (R38, R117). -/
theorem loadBroadcast_cases (s : State) (a : Word) :
    ((s.params.acCheck = true ∧ a.toNat % 4 ≠ 0) ∧ loadBroadcast s a = .fault (.ac s.pc)) ∨
    (¬ (s.params.acCheck = true ∧ a.toNat % 4 ≠ 0) ∧ loadBroadcast s a = loadBytes s a 4) := by
  unfold loadBroadcast raiseAC raiseFault
  cases hc : s.params.acCheck <;> by_cases ha : a.toNat % 4 = 0 <;> simp [ha]

/-- The registers of the operands exist exactly when no operand is missing (R8). -/
theorem missingOperand_eq_none {p : Params} {o : OpEnA} :
    missingOperand p o = none ↔ o.src1.val < p.numZmm ∧ Src2.missing p o.src2 = none := by
  unfold missingOperand missingVReg
  by_cases h : o.src1.val < p.numZmm <;> simp [h]

/-- The second source goes on exactly when its registers exist and it can be read. -/
theorem secondSource_next_iff (s : State) (vl : VecLen) (o : OpEnA) (h : Src2.missing s.params o.src2 = none) :
    (∃ c, secondSource s vl o = .next c) ↔ sourceReadable s vl o = true := by
  cases hs : o.src2 with
  | reg n =>
    have hn : n.val < s.params.numZmm := by
      rw [hs] at h
      by_contra hn
      simp [Src2.missing, missingVReg, hn] at h
    simp [secondSource, sourceReadable, hs, hn]
  | mem a =>
    simp only [secondSource, sourceReadable, hs, loadFull]
    rcases loadBytes_cases s (operandAddress s vl o a) vl.bytes with ⟨ha, hl⟩ | ⟨ha, hl⟩
    · rw [hl, ha]; exact ⟨fun _ => rfl, fun _ => ⟨_, rfl⟩⟩
    · rw [hl, ha]; exact ⟨fun ⟨_, hc⟩ => (by cases hc), fun hc => (by cases hc)⟩
  | bcst a =>
    simp only [secondSource, sourceReadable, hs]
    rcases loadBroadcast_cases s (operandAddress s vl o a) with ⟨hc, hl⟩ | ⟨hc, hl⟩
    · rw [hl]
      simp [hc.1, hc.2]
    · rw [hl]
      have hc' : (!s.params.acCheck || (operandAddress s vl o a).toNat % 4 == 0) = true := by
        cases hac : s.params.acCheck with
        | false => rfl
        | true =>
          have : (operandAddress s vl o a).toNat % 4 = 0 := by
            by_contra hne
            exact hc ⟨hac, hne⟩
          simp [this]
      rcases loadBytes_cases s (operandAddress s vl o a) 4 with ⟨ha, hl⟩ | ⟨ha, hl⟩
      · rw [hl, ha, hc']; exact ⟨fun _ => rfl, fun _ => ⟨_, rfl⟩⟩
      · rw [hl, ha, hc']; exact ⟨fun ⟨_, hc⟩ => (by cases hc), fun hc => (by cases hc)⟩

/-- What a second source holds when it goes on: nothing but its register's elements, or the bytes of its operand
(R31, R32). -/
theorem secondSource_value {s : State} {vl : VecLen} {o : OpEnA} {c : Nat → Dword} (h : secondSource s vl o = .next c) :
    c = match o.src2 with
      | .reg n => element (sourceReg s vl n)
      | .mem a => element (memRead s (operandAddress s vl o a) vl.bytes)
      | .bcst a => fun _ => memRead s (operandAddress s vl o a) 4 := by
  cases hs : o.src2 with
  | reg n =>
    simp only [secondSource, hs] at h
    exact (Host.Outcome.next.inj h).symm
  | mem a =>
    simp only [secondSource, hs, loadFull] at h
    rcases loadBytes_cases s (operandAddress s vl o a) vl.bytes with ⟨-, hl⟩ | ⟨-, hl⟩ <;> rw [hl] at h
    · exact (Host.Outcome.next.inj h).symm
    · cases h
  | bcst a =>
    simp only [secondSource, hs] at h
    rcases loadBroadcast_cases s (operandAddress s vl o a) with ⟨-, hl⟩ | ⟨-, hl⟩ <;> rw [hl] at h
    · cases h
    rcases loadBytes_cases s (operandAddress s vl o a) 4 with ⟨-, hl⟩ | ⟨-, hl⟩ <;> rw [hl] at h
    · exact (Host.Outcome.next.inj h).symm
    · cases h

/-- What a second source depends on: the parameters, the source registers' low VL bits, its address and its bytes
(R11, R17, R32). -/
theorem secondSource_congr {s s' : State} {vl : VecLen} {o : OpEnA} {c : Nat → Dword} (hp : s'.params = s.params)
    (hz : ∀ n, sourceReg s' vl n = sourceReg s vl n)
    (ha : ∀ a, (o.src2 = .mem a ∨ o.src2 = .bcst a) → operandAddress s' vl o a = operandAddress s vl o a)
    (hm : ∀ a, (o.src2 = .mem a ∨ o.src2 = .bcst a) →
      memRead s' (operandAddress s vl o a) (operandBytes vl o.src2)
        = memRead s (operandAddress s vl o a) (operandBytes vl o.src2))
    (h : secondSource s vl o = .next c) : secondSource s' vl o = .next c := by
  unfold secondSource at h ⊢
  cases hs : o.src2 with
  | reg n => simpa only [hs, hz] using h
  | mem a =>
    have hm' := hm a (.inl hs)
    rw [hs] at h hm'
    simp only [operandBytes] at hm'
    simp only [ha a (.inl hs), loadFull, loadBytes, hp, hm'] at h ⊢
    split at h
    next hacc => rw [if_pos hacc]; exact h
    · cases h
  | bcst a =>
    have hm' := hm a (.inr hs)
    rw [hs] at h hm'
    simp only [operandBytes] at hm'
    simp only [ha a (.inr hs), loadBroadcast, loadBytes, hp, hm'] at h ⊢
    split at h
    · cases h
    next hac =>
      rw [if_neg hac]
      split at h
      next hacc => rw [if_pos hacc]; exact h
      · cases h

/-! ### The compare -/

/-- Every instruction is the one operation, for its mnemonic and vector length (R81). -/
theorem exec_eq (i : Instr) (s : State) : exec i s = comparePacked i.op i.vl i.operands s := by cases i <;> rfl

/-- The form of an instruction does not change what it is. -/
theorem exec_of (op : CmpOp) (vl : VecLen) (o : OpEnA) (s : State) :
    exec (Instr.of op vl o) s = comparePacked op vl o s := by cases op <;> cases vl <;> rfl

/-- Everything `comparePacked` can do: `UD`, a missing register, a stop of the second source, or the one write of
R81. -/
theorem comparePacked_cases (op : CmpOp) (vl : VecLen) (o : OpEnA) (s : State) :
    (usable s.params vl = false ∧ comparePacked op vl o s = .fault (.ud s.pc)) ∨
    (usable s.params vl = true ∧ ∃ n, missingOperand s.params o = some n ∧
      comparePacked op vl o s = .refused (.noSuchVectorRegister n)) ∨
    (usable s.params vl = true ∧ missingOperand s.params o = none ∧
      comparePacked op vl o s = (secondSource s vl o).thenDo fun c => .next (completeCompare s op vl o c)) := by
  unfold comparePacked raiseUD raiseFault
  cases hu : usable s.params vl with
  | false => exact .inl ⟨rfl, by simp⟩
  | true =>
    cases hm : missingOperand s.params o with
    | none => exact .inr (.inr ⟨rfl, rfl, by simp⟩)
    | some n => exact .inr (.inl ⟨rfl, n, rfl, by simp⟩)

/-- If the compare answers a next state, its checks passed and the state is R81's. -/
theorem comparePacked_next {op : CmpOp} {vl : VecLen} {o : OpEnA} {s t : State}
    (h : comparePacked op vl o s = .next t) :
    usable s.params vl = true ∧ missingOperand s.params o = none ∧
      ∃ c, secondSource s vl o = .next c ∧ t = completeCompare s op vl o c := by
  rcases comparePacked_cases op vl o s with ⟨-, he⟩ | ⟨-, n, -, he⟩ | ⟨hu, hm, he⟩
  · rw [he] at h; cases h
  · rw [he] at h; cases h
  · rw [he] at h
    obtain ⟨c, hc, ht⟩ := thenDo_eq_next h
    exact ⟨hu, hm, c, hc, (Host.Outcome.next.inj ht).symm⟩

/-- The written state is `afterCompare` of the result's `MAX_KL` bits. -/
theorem completeCompare_eq (s : State) (op : CmpOp) (vl : VecLen) (o : OpEnA) (c : Nat → Dword) :
    completeCompare s op vl o c = afterCompare s o (opmaskBits s.params.maxKL (comparisonMask s op vl o c)) := rfl

/-- The result mask bit by bit (R81). -/
theorem testBit_comparisonMask (s : State) (op : CmpOp) (vl : VecLen) (o : OpEnA) (c : Nat → Dword) (j : Nat) :
    (comparisonMask s op vl o c).testBit j = (decide (j < vl.kl) &&
      (writemaskBit s o.mask j && compareElements op o.pred (element (sourceReg s vl o.src1) j) (c j))) :=
  testBit_maskOf ..

/-- The result mask has no bit from 16 up (R5, R81). -/
theorem comparisonMask_lt (s : State) (op : CmpOp) (vl : VecLen) (o : OpEnA) (c : Nat → Dword) :
    comparisonMask s op vl o c < 2 ^ 16 :=
  Nat.lt_pow_two_of_testBit _ fun j hj => by
    have := kl_le_sixteen vl
    rw [testBit_comparisonMask, decide_eq_false (by omega), Bool.false_and]

/-- With `MAX_KL >= 16` nothing of the result is cut (R6). -/
theorem comparisonMask_fits {s : State} (hw : 16 ≤ s.params.maxKL) (op : CmpOp) (vl : VecLen) (o : OpEnA)
    (c : Nat → Dword) : opmaskBits s.params.maxKL (comparisonMask s op vl o c) = comparisonMask s op vl o c :=
  opmaskBits_of_lt (Nat.lt_of_lt_of_le (comparisonMask_lt s op vl o c) (Nat.pow_le_pow_right (by decide) hw))

end Sys2Proof.Machine
end

