-- ==== Sys2Proof/Laws/Decode.lean ====
section
/-! SUPPORT. What the decoder and its parts can do, said once (30_encoding.md R50, R60, R65, R71). -/

namespace Sys2Proof

/-! ### An instruction from its parts -/

@[simp] theorem Instr.op_of (op : CmpOp) (vl : VecLen) (o : OpEnA) : (Instr.of op vl o).op = op := by
  cases op <;> cases vl <;> rfl
@[simp] theorem Instr.vl_of (op : CmpOp) (vl : VecLen) (o : OpEnA) : (Instr.of op vl o).vl = vl := by
  cases op <;> cases vl <;> rfl
@[simp] theorem Instr.operands_of (op : CmpOp) (vl : VecLen) (o : OpEnA) : (Instr.of op vl o).operands = o := by
  cases op <;> cases vl <;> rfl
@[simp] theorem Instr.wf_of (op : CmpOp) (vl : VecLen) (o : OpEnA) : (Instr.of op vl o).wf = o.wf := by
  cases op <;> cases vl <;> rfl

/-! ### Row selection (R65) -/

/-- A selected row is one of the table's and its value is what the mask leaves of the first five bytes. -/
theorem selectRow_eq_some {w : BitVec 40} {row : OpcodeRow} (h : selectRow w = some row) :
    row ∈ opcodeTable ∧ w &&& opcodeMask = row.value :=
  ⟨List.mem_of_find?_eq_some h, by simpa using List.find?_some h⟩

/-- No row is selected where the mask leaves none of the table's values. -/
theorem selectRow_eq_none {w : BitVec 40} (h : ∀ row ∈ opcodeTable, w &&& opcodeMask ≠ row.value) :
    selectRow w = none :=
  List.find?_eq_none.2 fun row hr => by simpa using h row hr

/-! ### Fields (R50, R60) -/

/-- Everything `takeDisp` can give: 0, 1 or 4 bytes, the four in little-endian order (R30). -/
theorem takeDisp_eq_some {n : Nat} {bs rest : List Byte} {d : Disp} (h : takeDisp n bs = some (d, rest)) :
    (n = 0 ∧ d = .none ∧ bs = rest) ∨ (n = 1 ∧ ∃ x, d = .disp8 x ∧ bs = x :: rest) ∨
    (n = 4 ∧ ∃ d0 d1 d2 d3, d = .disp32 (d3 ++ d2 ++ d1 ++ d0) ∧ bs = d0 :: d1 :: d2 :: d3 :: rest) := by
  unfold takeDisp at h
  split at h
  · cases h; exact .inl ⟨rfl, rfl, rfl⟩
  · cases h; exact .inr (.inl ⟨rfl, _, rfl, rfl⟩)
  · cases h; exact .inr (.inr ⟨rfl, _, _, _, _, rfl, rfl⟩)
  · cases h

/-- Everything `takeSib` can give: the next byte where the ModRM byte asks for one, nothing otherwise. -/
theorem takeSib_eq_some {modrm : Byte} {bs rest : List Byte} {sib : Option Byte}
    (h : takeSib modrm bs = some (sib, rest)) :
    (hasSib modrm = true ∧ ∃ x, sib = some x ∧ bs = x :: rest) ∨ (hasSib modrm = false ∧ sib = none ∧ bs = rest) := by
  unfold takeSib at h
  split at h
  next hs =>
    cases bs with
    | nil => cases h
    | cons x bs => cases h; exact .inl ⟨hs, _, rfl, rfl⟩
  next hs => cases h; exact .inr ⟨by simpa using hs, rfl, rfl⟩

/-- The layout of R50: ModRM, SIB, displacement, imm8. -/
theorem splitFields_eq_some {p0 p1 p2 : Byte} {tail rest : List Byte} {f : Fields}
    (h : splitFields p0 p1 p2 tail = some (f, rest)) :
    ∃ bs bs', tail = f.modrm :: bs ∧ takeSib f.modrm bs = some (f.sib, bs') ∧
      takeDisp (dispSize f.modrm (f.sib.getD 0#8)) bs' = some (f.disp, f.imm8 :: rest) ∧
      f.p0 = p0 ∧ f.p1 = p1 ∧ f.p2 = p2 := by
  cases tail with
  | nil => cases h
  | cons modrm bs =>
    simp only [splitFields] at h
    cases hs : takeSib modrm bs with
    | none => simp [hs] at h
    | some r =>
      obtain ⟨sib, bs'⟩ := r
      simp only [hs] at h
      split at h
      next disp imm8 bs'' hd =>
        cases h
        exact ⟨bs, bs', rfl, hs, hd, rfl, rfl, rfl⟩
      · cases h

/-! ### Admission (R71) -/

/-- Fields that no check refuses pass every check of R66, R67, R68, R54 and R58. -/
theorem refusal_eq_none {reserved : ReservedImm8} {f : Fields} (h : f.refusal reserved = none) :
    (reserved = .refuse → f.imm8.extractLsb' 3 5 = 0#5) ∧ (f.bcst && f.isReg) = false ∧ f.p2.getLsbD 7 = false ∧
    f.p0.getLsbD 7 = true ∧ f.p0.getLsbD 4 = true ∧ f.unusedBitClear = false := by
  unfold Fields.refusal at h
  split at h
  · cases h
  next h1 =>
    split at h
    · cases h
    next h2 =>
      split at h
      · cases h
      next h3 =>
        split at h
        · cases h
        next h4 =>
          split at h
          · cases h
          next h5 =>
            simp only [Bool.not_eq_true', Bool.not_eq_false, Bool.and_eq_true] at h4
            refine ⟨fun hr => ?_, by simpa using h2, by simpa using h3, h4.1, h4.2, by simpa using h5⟩
            subst hr
            simpa using h1

/-- Everything an admitted instruction went through: five bytes select a row, the rest splits into fields, and the fields
pass every check (R71). -/
theorem decode_eq_ok {reserved : ReservedImm8} {bs rest : List Byte} {i : Instr} (h : decode reserved bs = .ok (i, rest)) :
    ∃ b0 p0 p1 p2 opc tail row f, bs = b0 :: p0 :: p1 :: p2 :: opc :: tail ∧
      selectRow (leadWord b0 p0 p1 p2 opc) = some row ∧ splitFields p0 p1 p2 tail = some (f, rest) ∧
      f.refusal reserved = none ∧ i = Instr.of row.op row.vl f.operands := by
  unfold decode at h
  split at h
  next b0 p0 p1 p2 opc tail =>
    split at h
    · cases h
    next row hrow =>
      split at h
      · cases h
      next f r hs =>
        split at h
        · cases h
        next hr =>
          cases h
          exact ⟨b0, p0, p1, p2, opc, tail, row, f, rfl, hrow, hs, hr, rfl⟩
  · cases h

end Sys2Proof
end

