-- ==== Sys2Proof/Laws/PerInstr.lean ====
section
/-! SUPPORT. Facts about instructions as data, one lemma per constructor. Family `FormParts`: an instruction is its
mnemonic, its vector length and its operands, and it is well formed exactly when its operands are. -/

namespace Sys2Proof.Laws.FormParts

/-- An instruction is rebuilt from its parts, and its well-formedness is its operands'. -/
def Statement (i : Instr) : Prop := Instr.of i.op i.vl i.operands = i ∧ i.wf = i.operands.wf

theorem vpcmpud128 (o : OpEnA) : Statement (.vpcmpud128 o) := ⟨rfl, rfl⟩
theorem vpcmpud256 (o : OpEnA) : Statement (.vpcmpud256 o) := ⟨rfl, rfl⟩
theorem vpcmpud512 (o : OpEnA) : Statement (.vpcmpud512 o) := ⟨rfl, rfl⟩
theorem vpcmpd128 (o : OpEnA) : Statement (.vpcmpd128 o) := ⟨rfl, rfl⟩
theorem vpcmpd256 (o : OpEnA) : Statement (.vpcmpd256 o) := ⟨rfl, rfl⟩
theorem vpcmpd512 (o : OpEnA) : Statement (.vpcmpd512 o) := ⟨rfl, rfl⟩

end Sys2Proof.Laws.FormParts
end

