-- ==== Sys2Proof/Laws/Step.lean ====
section
/-! SUPPORT. What fetching and one step can do, said once (40_vpcmpud.md R89). -/

namespace Sys2Proof.Machine

/-- Everything the fetch can do (R89 step 1). -/
theorem fetchBytes_cases (s : State) :
    (accessible s.params s.pc 7 = false ∧ fetchBytes s = .fault (.memFault s.pc 7 s.pc)) ∨
    (accessible s.params s.pc 7 = true ∧ accessible s.params s.pc (lengthAtPc s) = false ∧
      fetchBytes s = .fault (.memFault s.pc (lengthAtPc s) s.pc)) ∨
    (accessible s.params s.pc 7 = true ∧ accessible s.params s.pc (lengthAtPc s) = true ∧
      fetchBytes s = .next (readBytes s s.pc (lengthAtPc s))) := by
  unfold fetchBytes raiseMemFault raiseFault
  cases accessible s.params s.pc 7 <;> cases accessible s.params s.pc (lengthAtPc s) <;> simp

/-- Everything decoding the fetched bytes can do (R89 step 2). -/
theorem decodeFetched_cases (s : State) (bs : List Byte) :
    (∃ why, decode s.params.reservedImm8 bs = .error why ∧ decodeFetched s bs = .refused (.undecodable why)) ∨
    (∃ i rest, decode s.params.reservedImm8 bs = .ok (i, rest) ∧ decodeFetched s bs = .next i) := by
  unfold decodeFetched
  cases h : decode s.params.reservedImm8 bs with
  | error why => exact .inl ⟨why, rfl, rfl⟩
  | ok r => exact .inr ⟨r.1, r.2, rfl, rfl⟩

/-- A step that answers a next state fetched, decoded and executed one instruction. -/
theorem step_next {s t : State} (h : step s = .next t) :
    ∃ i rest, accessible s.params s.pc (lengthAtPc s) = true ∧
      decode s.params.reservedImm8 (readBytes s s.pc (lengthAtPc s)) = .ok (i, rest) ∧ exec i s = .next t := by
  obtain ⟨i, hi, he⟩ := thenDo_eq_next h
  obtain ⟨bs, hb, hd⟩ := thenDo_eq_next hi
  rcases fetchBytes_cases s with ⟨-, hf⟩ | ⟨-, -, hf⟩ | ⟨-, ha, hf⟩ <;> rw [hf] at hb
  · cases hb
  · cases hb
  · cases hb
    rcases decodeFetched_cases s (readBytes s s.pc (lengthAtPc s)) with ⟨_, -, hr⟩ | ⟨j, rest, hj, hr⟩ <;> rw [hr] at hd
    · cases hd
    · cases hd
      exact ⟨i, rest, ha, hj, he⟩

/-- Placing an instruction changes memory and, where it must, `Accessible`. -/
theorem placeAtPc_eq (s : State) (nbits w : Nat) :
    placeAtPc s nbits w = { s with
      mem := (memWrite s s.pc 12 (tableWordBits nbits w).toNat).mem, params := makeAccessible s.params s.pc 12 } := by
  unfold placeAtPc
  generalize 12 = n
  generalize (tableWordBits nbits w).toNat = v
  have h := memWrite_frame n s s.pc v
  generalize memWrite s s.pc n v = t at h
  rw [h]

end Sys2Proof.Machine
end

