-- ==== Sys2Proof/Tests/Slice0.lean ====
section
/-! SUPPORT. The model's own tests: ill-formed terms that WellFormed refuses, words of 95_test_vectors.md for the decoder
and the encoder, single steps of its semantic vectors, and a witness for the hypotheses of each obligation. -/

namespace Sys2Proof.Tests

open Sys2Proof Sys2Proof.Machine

-- One theorem after another: each thread that checks one in parallel reserves a large stack.
set_option Elab.async false

/-! ### WellFormed: one ill-formed term for each check -/

theorem test_wf_refuses_k0_as_writemask : (Instr.vpcmpud512 ⟨1, some 0, 2, .reg 3, .lt⟩).wf = false := by decide
theorem test_wf_refuses_rsp_as_index :
    (Instr.vpcmpud128 ⟨1, none, 2, .mem (.sib 0 (some 4) 0 .none), .lt⟩).wf = false ∧
    (Instr.vpcmpud256 ⟨1, none, 2, .bcst (.sibNoBase (some 4) 0 0), .lt⟩).wf = false := by decide
theorem test_wf_refuses_rsp_or_r12_without_sib :
    (Instr.vpcmpd128 ⟨1, none, 2, .mem (.base 4 (.disp8 0)), .lt⟩).wf = false ∧
    (Instr.vpcmpd256 ⟨1, none, 2, .bcst (.base 12 .none), .lt⟩).wf = false := by decide
theorem test_wf_refuses_rbp_or_r13_without_displacement :
    (Instr.vpcmpd512 ⟨1, none, 2, .mem (.base 5 .none), .lt⟩).wf = false ∧
    (Instr.vpcmpd512 ⟨1, none, 2, .mem (.sib 13 none 0 .none), .lt⟩).wf = false := by decide

/-! ### Decoding: the vectors of 95_test_vectors.md section 2 -/

/-- Decoding gives this instruction, with a length of all the bytes, and encoding it gives the bytes back. -/
def reads (bs : List Byte) (i : Instr) : Bool :=
  decide (decode .refuse bs = .ok (i, [])) && decide (i.length = bs.length) && decide (encode i = bs) && i.wf

/-- E1 to E4, E11, E19: registers, writemask, lengths. -/
theorem test_decode_registers :
    reads [0x62, 0xF3, 0x6D, 0x48, 0x1E, 0xCB, 0x01] (.vpcmpud512 ⟨1, none, 2, .reg 3, .lt⟩) ∧
    reads [0x62, 0xF3, 0x6D, 0x4B, 0x1E, 0xCB, 0x01] (.vpcmpud512 ⟨1, some 3, 2, .reg 3, .lt⟩) ∧
    reads [0x62, 0xF3, 0x6D, 0x08, 0x1E, 0xCB, 0x00] (.vpcmpud128 ⟨1, none, 2, .reg 3, .eq⟩) ∧
    reads [0x62, 0xF3, 0x55, 0x28, 0x1E, 0xCE, 0x04] (.vpcmpud256 ⟨1, none, 5, .reg 6, .neq⟩) ∧
    reads [0x62, 0xB3, 0x6D, 0x40, 0x1E, 0xD3, 0x02] (.vpcmpud512 ⟨2, none, 18, .reg 19, .le⟩) ∧
    reads [0x62, 0xF3, 0x55, 0x08, 0x1E, 0xC5, 0x07] (.vpcmpud128 ⟨0, none, 5, .reg 5, .always⟩) := by
  decide

/-- E5 to E8, E13, E15, E17: a base register, each displacement, broadcast. -/
theorem test_decode_base :
    reads [0x62, 0xF3, 0x6D, 0x4A, 0x1E, 0x08, 0x05] (.vpcmpud512 ⟨1, some 2, 2, .mem (.base 0 .none), .nlt⟩) ∧
    reads [0x62, 0xF3, 0x6D, 0x48, 0x1E, 0x48, 0x01, 0x06]
      (.vpcmpud512 ⟨1, none, 2, .mem (.base 0 (.disp8 1)), .nle⟩) ∧
    reads [0x62, 0xF3, 0x6D, 0x58, 0x1E, 0x48, 0x01, 0x06]
      (.vpcmpud512 ⟨1, none, 2, .bcst (.base 0 (.disp8 1)), .nle⟩) ∧
    reads [0x62, 0xF3, 0x6D, 0x08, 0x1E, 0x48, 0x01, 0x06]
      (.vpcmpud128 ⟨1, none, 2, .mem (.base 0 (.disp8 1)), .nle⟩) ∧
    reads [0x62, 0xF3, 0x6D, 0x48, 0x1E, 0x88, 0x78, 0x56, 0x34, 0x12, 0x04]
      (.vpcmpud512 ⟨1, none, 2, .mem (.base 0 (.disp32 0x12345678)), .neq⟩) ∧
    reads [0x62, 0xF3, 0x6D, 0x48, 0x1E, 0x4D, 0x00, 0x00]
      (.vpcmpud512 ⟨1, none, 2, .mem (.base 5 (.disp8 0)), .eq⟩) ∧
    reads [0x62, 0xF3, 0x6D, 0x48, 0x1E, 0x48, 0xFF, 0x00]
      (.vpcmpud512 ⟨1, none, 2, .mem (.base 0 (.disp8 0xFF)), .eq⟩) := by
  decide

/-- E9, E10, E12, E14, E16: SIB bytes, pc-relative, no base. -/
theorem test_decode_sib :
    reads [0x62, 0xF3, 0x6D, 0x46, 0x1E, 0x7C, 0x8B, 0x04, 0x06]
      (.vpcmpud512 ⟨7, some 6, 18, .mem (.sib 3 (some 1) 2 (.disp8 4)), .nle⟩) ∧
    reads [0x62, 0xF3, 0x6D, 0x48, 0x1E, 0x0D, 0x10, 0x00, 0x00, 0x00, 0x00]
      (.vpcmpud512 ⟨1, none, 2, .mem (.pcRel 0x10), .eq⟩) ∧
    reads [0x62, 0x93, 0x6D, 0x48, 0x1E, 0x0C, 0xC8, 0x00]
      (.vpcmpud512 ⟨1, none, 2, .mem (.sib 8 (some 9) 3 .none), .eq⟩) ∧
    reads [0x62, 0xF3, 0x6D, 0x48, 0x1E, 0x0C, 0x24, 0x00]
      (.vpcmpud512 ⟨1, none, 2, .mem (.sib 4 none 0 .none), .eq⟩) ∧
    reads [0x62, 0xF3, 0x6D, 0x48, 0x1E, 0x0C, 0x25, 0x00, 0x10, 0x00, 0x00, 0x07]
      (.vpcmpud512 ⟨1, none, 2, .mem (.sibNoBase none 0 0x1000), .always⟩) := by
  decide

/-- E18, the second instruction of program P3, and the examples of R102 and R103: opcode 1F at the three lengths. -/
theorem test_decode_vpcmpd :
    reads [0x62, 0xF3, 0x6D, 0x08, 0x1F, 0xCB, 0x01] (.vpcmpd128 ⟨1, none, 2, .reg 3, .lt⟩) ∧
    reads [0x62, 0xF3, 0x55, 0x09, 0x1F, 0xCE, 0x01] (.vpcmpd128 ⟨1, some 1, 5, .reg 6, .lt⟩) ∧
    reads [0x62, 0xF3, 0x55, 0x28, 0x1F, 0xCE, 0x06] (.vpcmpd256 ⟨1, none, 5, .reg 6, .nle⟩) ∧
    reads [0x62, 0xF3, 0x7D, 0x48, 0x1F, 0xC9, 0x05] (.vpcmpd512 ⟨1, none, 0, .reg 1, .nlt⟩) := by
  decide

/-- X1 to X6 and X14: the checks after row selection. -/
theorem test_refused_fields :
    decode .refuse [0x62, 0xF3, 0x6D, 0x48, 0x1E, 0xCB, 0x09] = .error .reservedImm8 ∧
    decode .ignore [0x62, 0xF3, 0x6D, 0x48, 0x1E, 0xCB, 0x09] = .ok (.vpcmpud512 ⟨1, none, 2, .reg 3, .lt⟩, []) ∧
    decode .refuse [0x62, 0xF3, 0x6D, 0x58, 0x1E, 0xCB, 0x01] = .error .bWithRegister ∧
    decode .refuse [0x62, 0xF3, 0x6D, 0xC8, 0x1E, 0xCB, 0x01] = .error .zSet ∧
    decode .refuse [0x62, 0x73, 0x6D, 0x48, 0x1E, 0xCB, 0x01] = .error .regExtension ∧
    decode .refuse [0x62, 0xE3, 0x6D, 0x48, 0x1E, 0xCB, 0x01] = .error .regExtension ∧
    decode .refuse [0x62, 0xB3, 0x6D, 0x4A, 0x1E, 0x08, 0x05] = .error .unusedExtensionBit := by decide

/-- X4 and X7 to X13: no row is selected. -/
theorem test_refused_rows :
    decode .refuse [0x62, 0xF3, 0x6D, 0x68, 0x1E, 0xCB, 0x01] = .error .notInScope ∧
    decode .refuse [0x62, 0xF3, 0xED, 0x48, 0x1E, 0xCB, 0x01] = .error .notInScope ∧
    decode .refuse [0x66, 0x62, 0xF3, 0x6D, 0x48, 0x1E, 0xCB, 0x01] = .error .notInScope ∧
    decode .refuse [0x62, 0xF3, 0x6D, 0x48, 0x1D, 0xCB, 0x01] = .error .notInScope ∧
    decode .refuse [0x62, 0xF2, 0x6D, 0x48, 0x1E, 0xCB, 0x01] = .error .notInScope ∧
    decode .refuse [0x62, 0xF3, 0x6C, 0x48, 0x1E, 0xCB, 0x01] = .error .notInScope ∧
    decode .refuse [0x62, 0xF3, 0x69, 0x48, 0x1E, 0xCB, 0x01] = .error .notInScope ∧
    decode .refuse [0x62, 0xFB, 0x6D, 0x48, 0x1E, 0xCB, 0x01] = .error .notInScope := by decide

/-- The host's numbering of a word: E1 and E6 with their first byte least significant (log entry 25). -/
theorem test_table_word :
    decodeTableWord 56 0x01CB1E486DF362 = some (.vpcmpud512 ⟨1, none, 2, .reg 3, .lt⟩) ∧
    decodeTableWord 64 0x0601481E486DF362 = some (.vpcmpud512 ⟨1, none, 2, .mem (.base 0 (.disp8 1)), .nle⟩) := by
  decide

/-! ### Single steps: the semantic vectors of 95_test_vectors.md section 3 and the examples of the forms -/

/-- A vector register from its elements, element 0 first. -/
def packed (xs : List Nat) : Vec := xs.foldr (fun x v => v <<< 32 ||| BitVec.ofNat 512 x) 0#512

/-- A state with two vector registers and some opmask registers set. -/
def withSources (n m : VReg) (a b : List Nat) (k : List (KReg × Nat)) : State :=
  { State.reset with
    zmm := (State.reset.zmm.set n (packed a)).set m (packed b)
    k := k.foldl (fun f e => f.set e.1 e.2) State.reset.k }

/-- An opmask register of the next state. -/
def kAfter (r : Result State) (n : KReg) : Option Nat :=
  match r with
  | .next t => some (readK t n)
  | .fault _ => none
  | .refused _ => none

/-- The eight predicates in the order of their numbers. -/
def predicates : List Predicate := [.eq, .lt, .le, .never, .neq, .nlt, .nle, .always]

/-- The data of V1, with the writemask of V3. -/
def v1 : State := withSources 2 3 [0x1, 0xFFFFFFFF, 0x80000000, 0x0] [0x1, 0x1, 0x7FFFFFFF, 0xFFFFFFFF] [(3, 5), (1, 0xA)]

/-- V1, and V3 under its writemask. -/
theorem test_vpcmpud128_v1_v3 :
    predicates.map (fun p => kAfter (exec (.vpcmpud128 ⟨1, none, 2, .reg 3, p⟩) v1) 1)
      = [some 1, some 8, some 9, some 0, some 0xE, some 7, some 6, some 0xF] ∧
    predicates.map (fun p => kAfter (exec (.vpcmpud128 ⟨1, some 3, 2, .reg 3, p⟩) v1) 1)
      = [some 1, some 0, some 1, some 0, some 4, some 5, some 4, some 5] := by decide +kernel

/-- The state of V7: RAX, an operand in memory, a first source. -/
def v7 : State :=
  { withSources 2 3 [0x1, 0xFFFFFFFE, 0x80000001, 0x78563412] [] [] with
    gpr := State.reset.gpr.set 0 0x2000#64
    mem := [(0x2000, 0x01), (0x2004, 0xFF), (0x2005, 0xFF), (0x2006, 0xFF), (0x2007, 0xFF), (0x200B, 0x80),
      (0x200C, 0x78), (0x200D, 0x56), (0x200E, 0x34), (0x200F, 0x12)] }

/-- V7 (byte order of a full operand) and V8 (a broadcast doubleword). -/
theorem test_vpcmpud128_v7_v8 :
    predicates.map (fun p => kAfter (exec (.vpcmpud128 ⟨1, none, 2, .mem (.base 0 .none), p⟩) v7) 1)
      = [some 1, some 2, some 3, some 0, some 0xE, some 0xD, some 0xC, some 0xF] ∧
    kAfter (exec (.vpcmpud128 ⟨1, none, 2, .bcst (.base 0 (.disp8 2)), .lt⟩) v7) 1 = some 9 := by decide +kernel

/-- The data of R83 and R102. -/
def r83 : State :=
  withSources 5 6 [0x5, 0xFFFFFFFF, 0x7, 0x80000000, 1, 2, 3, 4] [0x5, 0x1, 0xFFFFFFF0, 0x7FFFFFFF, 1, 9, 3, 9]
    [(1, 0xFFFFFFFFFFFFFFFF)]

/-- The example of R83, and V4: the bits above KL become 0. -/
theorem test_vpcmpud256_r83_v4 :
    kAfter (exec (.vpcmpud256 ⟨1, none, 5, .reg 6, .neq⟩) r83) 1 = some 0xAE ∧
    kAfter (exec (.vpcmpud256 ⟨1, none, 5, .reg 6, .always⟩) r83) 1 = some 0xFF := by decide +kernel

/-- The data of program P1 and R103: element j of zmm0 is j * 10000000h. -/
def p1 : State :=
  withSources 0 1 ((List.range 16).map (0x10000000 * ·)) (List.replicate 16 0x30000000) []

/-- The first step of program P1. -/
theorem test_vpcmpud512_p1 : kAfter (exec (.vpcmpud512 ⟨1, none, 0, .reg 1, .nlt⟩) p1) 1 = some 0xFFF8 := by decide +kernel

/-- The state of V9. -/
def v9 : State :=
  { withSources 2 3 ((List.range 16).map (2 * ·)) [] [] with
    gpr := State.reset.gpr.set 0 0x2000#64, mem := [(0x2000, 0x10)] }

/-- V9: a broadcast operand under each predicate. -/
theorem test_vpcmpud512_v9 :
    predicates.map (fun p => kAfter (exec (.vpcmpud512 ⟨1, none, 2, .bcst (.base 0 .none), p⟩) v9) 1)
      = [some 0x0100, some 0x00FF, some 0x01FF, some 0, some 0xFEFF, some 0xFF00, some 0xFE00, some 0xFFFF] := by
  decide +kernel

/-- V2. -/
theorem test_vpcmpd128_v2 :
    predicates.map (fun p => kAfter (exec (.vpcmpd128 ⟨1, none, 2, .reg 3, p⟩) v1) 1)
      = [some 1, some 6, some 7, some 0, some 0xE, some 9, some 8, some 0xF] := by decide +kernel

/-- The second step of program P3: the destination is the writemask, which holds AE. -/
theorem test_vpcmpd128_p3 :
    kAfter (exec (.vpcmpd128 ⟨1, some 1, 5, .reg 6, .lt⟩) { r83 with k := r83.k.set 1 0xAE }) 1 = some 0xA := by decide +kernel

/-- The example of R102. -/
theorem test_vpcmpd256_r102 : kAfter (exec (.vpcmpd256 ⟨1, none, 5, .reg 6, .nle⟩) r83) 1 = some 0x04 := by decide +kernel

/-- The example of R103. -/
theorem test_vpcmpd512_r103 : kAfter (exec (.vpcmpd512 ⟨1, none, 0, .reg 1, .nlt⟩) p1) 1 = some 0x00F8 := by decide +kernel

/-! ### Witnesses: for each obligation with hypotheses, a state and operands that meet them, each clause in turn

Obligations about bytes that decode take the words of the decode tests above as well. -/

/-- An outcome is a next state. -/
def completes (r : Result State) : Bool :=
  match r with
  | .next _ => true
  | .fault _ => false
  | .refused _ => false

/-- The fault of an outcome. -/
def faultOf (r : Result State) : Option Fault :=
  match r with
  | .next _ => none
  | .fault f => some f
  | .refused _ => none

/-- The refusal of an outcome. -/
def refusalOf (r : Result State) : Option Refusal :=
  match r with
  | .next _ => none
  | .fault _ => none
  | .refused x => some x

/-- A completing outcome has a next state: the form the obligations' hypotheses have. -/
theorem exists_next_of_completes {r : Result State} (h : completes r = true) : ∃ t, r = .next t := by
  cases r with
  | next t => exact ⟨t, rfl⟩
  | fault f => cases h
  | refused x => cases h

/-- The six forms. -/
def forms : List (OpEnA → Instr) :=
  [.vpcmpud128, .vpcmpud256, .vpcmpud512, .vpcmpd128, .vpcmpd256, .vpcmpd512]

/-- A register, a full memory and a broadcast second source, with and without a writemask, at boundary registers. -/
def operandSamples : List OpEnA :=
  [⟨0, none, 0, .reg 31, .eq⟩, ⟨7, some 7, 31, .mem (.base 0 .none), .always⟩,
    ⟨1, some 1, 2, .bcst (.sib 0 (some 15) 3 (.disp8 0x80)), .lt⟩]

/-- For `VpcmpudWritesTheComparison`, `VpcmpdWritesTheComparison`, and every obligation with the hypothesis
`exec i s = .next t` and no other: each form completes on each kind of second source, also with the least `MAX_KL` and
with more bits and registers than R6's defaults. -/
theorem test_witness_executable : ∀ s ∈ [v7, { v7 with params := { v7.params with maxKL := 16 } },
      { v7 with zmm := List.replicate 40 0, params := { v7.params with maxKL := 80, numZmm := 40 } }],
    Params.wf s.params = true ∧ ∀ o ∈ operandSamples,
      (∀ vl ∈ [VecLen.v128, .v256, .v512], executable s vl o = true) ∧ ∀ f ∈ forms, completes (exec (f o) s) = true := by
  decide +kernel

/-- For `DecodeEncodeRoundTrip` and `EncodedInstructionAtPcRuns`: well-formed instructions of every form. -/
theorem test_witness_wf : ∀ f ∈ forms, ∀ o ∈ operandSamples, (f o).wf = true := by decide +kernel

/-- For `DecodedLengthFollowsModRMAndSib`: an instruction of each length (E1, E6, E9, E10, E16). -/
theorem test_witness_lengths :
    [Instr.vpcmpud512 ⟨1, none, 2, .reg 3, .lt⟩, .vpcmpud512 ⟨1, none, 2, .mem (.base 0 (.disp8 1)), .nle⟩,
      .vpcmpud512 ⟨7, some 6, 18, .mem (.sib 3 (some 1) 2 (.disp8 4)), .nle⟩,
      .vpcmpud512 ⟨1, none, 2, .mem (.pcRel 0x10), .eq⟩,
      .vpcmpud512 ⟨1, none, 2, .mem (.sibNoBase none 0 0x1000), .always⟩].map Instr.length = [7, 8, 9, 11, 12] := by
  decide

/-- For `FirstByteOtherThan62IsRefused`, `LengthCode11IsRefused`, `OtherOpcodeFieldsAreRefused`, `ZeroingBitIsRefused`,
`BroadcastBitWithRegisterIsRefused`, `DestinationIsModRMReg`: the bytes that meet each hypothesis. -/
theorem test_witness_refused_bytes :
    (0x66#8 ≠ 0x62#8) ∧ (0x68#8).getLsbD 6 = true ∧ (0x68#8).getLsbD 5 = true ∧
    (0xED#8).getLsbD 7 = true ∧ (0x6C#8).toNat % 4 ≠ 1 ∧ (0xF2#8).toNat % 8 ≠ 3 ∧ (0xFB#8).getLsbD 3 = true ∧
    (0x69#8).getLsbD 2 = false ∧ (0x1D#8 ≠ 0x1E#8 ∧ 0x1D#8 ≠ 0x1F#8) ∧
    (0xC8#8).getLsbD 7 = true ∧ ((0x58#8).getLsbD 4 = true ∧ (0xCB#8).toNat / 64 = 3) ∧
    (0x73#8).getLsbD 7 = false ∧ (0xE3#8).getLsbD 4 = false := by decide

/-- For `UnusedExtensionBitIsRefused`: X̄ stored 0 with no SIB byte; B̄ stored 0 in each disp32-only case. -/
theorem test_witness_unused_bit :
    ((0x08#8).toNat / 64 ≠ 3 ∧ (0xB3#8).getLsbD 6 = false ∧ (0x08#8).toNat % 8 ≠ 4) ∧
    ((0x0D#8).toNat / 64 = 0 ∧ (0xD3#8).getLsbD 5 = false ∧ (0x0D#8).toNat % 8 = 5) ∧
    ((0x0C#8).toNat / 64 = 0 ∧ (0x0C#8).toNat % 8 = 4 ∧ ([0x25#8].getD 0 0#8).toNat % 8 = 5) := by decide

/-- For `ReservedImmediateBits`: the last admitted and the first reserved value of imm8. -/
theorem test_witness_reserved_imm8 :
    (Instr.vpcmpud512 ⟨1, none, 2, .reg 3, .lt⟩).wf = true ∧ (0x07#8).toNat / 8 = 0 ∧ (0x08#8).toNat / 8 ≠ 0 := by decide

/-- For `PredicateTable`: the last predicate number that has a negation above it. -/
theorem test_witness_predicate : (3#3).toNat < 4 ∧ compareInts (.ofBits 3) 0 0 = false := by decide

/-- Opmask registers of 80 bits (R6 bounds `MAX_KL` below only): bits from KL up become 0 (V4), also those above 64, and the
invariant admits such a value and 40 vector registers. -/
theorem test_wide_opmask :
    let wide : State := { State.reset with
      zmm := List.replicate 40 0, k := State.reset.k.set 1 (2 ^ 80 - 1)
      params := { State.reset.params with maxKL := 80, numZmm := 40 } }
    wide.wf = true ∧ readK wide 1 = 2 ^ 80 - 1 ∧
    kAfter (exec (.vpcmpud512 ⟨1, some 1, 2, .reg 3, .always⟩) wide) 1 = some 0xFFFF := by decide +kernel

/-- For `WritemaskAndsTheResult`: both instructions complete. -/
theorem test_witness_writemask :
    completes (exec (Instr.of .vpcmpud .v128 ⟨3, some 3, 2, .reg 3, .neq⟩) v1) = true ∧
    completes (exec (Instr.of .vpcmpud .v128 ⟨3, none, 2, .reg 3, .neq⟩) v1) = true := by decide +kernel

/-- For `OnlyTheWritemaskIsRead`: opmask registers that agree on the writemask's low four bits only (V10). -/
theorem test_witness_opmasks :
    (∀ j, j < 4 → ((v1.k.set 3 0xFFFFFFFFFFFFFFF5).set 1 0xFFFF)[3].testBit j = v1.k[3].testBit j) ∧
    completes (exec (.vpcmpud128 ⟨1, some 3, 2, .reg 3, .always⟩) v1) = true := by decide +kernel

/-- For `UpperSourceBitsAreIgnored`: register contents that agree below bit 128 and differ above (V11). -/
theorem test_witness_upper_bits :
    (∀ n : VReg, ∀ j, j < (Instr.vpcmpud128 ⟨1, none, 2, .reg 3, .eq⟩).vl.bits →
      (readZmm { v1 with zmm := v1.zmm.set 2 (packed [0x1, 0xFFFFFFFF, 0x80000000, 0x0, 0x9]) } n).getLsbD j
        = (readZmm v1 n).getLsbD j) ∧
    v1.zmm.set 2 (packed [0x1, 0xFFFFFFFF, 0x80000000, 0x0, 0x9]) ≠ v1.zmm ∧
    completes (exec (.vpcmpud128 ⟨1, none, 2, .reg 3, .eq⟩) v1) = true := by decide +kernel

/-- For `OnlyTheOperandBytesAreRead`: another memory that agrees on the operand, full and broadcast. -/
theorem test_witness_operand_bytes :
    (∀ j, j < 16 → readByte { v7 with mem := (0x1FFF, 0xAA) :: v7.mem } (0x2000#64 + BitVec.ofNat 64 j)
      = readByte v7 (0x2000#64 + BitVec.ofNat 64 j)) ∧
    (∀ j, j < 4 → readByte { v7 with mem := [(0x200B, 0x80)] } (0x2008#64 + BitVec.ofNat 64 j)
      = readByte v7 (0x2008#64 + BitVec.ofNat 64 j)) ∧
    operandAddress v7 .v128 ⟨1, none, 2, .mem (.base 0 .none), .lt⟩ (.base 0 .none) = 0x2000#64 ∧
    operandAddress v7 .v128 ⟨1, none, 2, .bcst (.base 0 (.disp8 2)), .lt⟩ (.base 0 (.disp8 2)) = 0x2008#64 ∧
    completes (exec (.vpcmpud128 ⟨1, none, 2, .mem (.base 0 .none), .lt⟩) v7) = true ∧
    completes (exec (.vpcmpud128 ⟨1, none, 2, .bcst (.base 0 (.disp8 2)), .lt⟩) v7) = true := by decide +kernel

/-- For `RegisterFormsIgnoreGeneralRegisters`, `SelfComparison` and `SignedAndUnsignedAgreeOnEquality`: V6, under a
predicate of each group. -/
theorem test_witness_self_comparison :
    Params.wf v1.params = true ∧
    completes (exec (.vpcmpud512 ⟨2, none, 7, .reg 7, .always⟩) v1) = true ∧
    completes (exec (.vpcmpud512 ⟨2, some 3, 7, .reg 7, .nle⟩) v1) = true ∧
    Predicate.always ∈ [Predicate.eq, .le, .nlt, .always] ∧ Predicate.nle ∈ [Predicate.lt, .never, .neq, .nle] ∧
    Predicate.never ∈ [Predicate.eq, .neq, .never, .always] := by decide +kernel

/-- For `MemoryFormsAgreeWithTheRegisterForm`: V7 with the operand's elements in zmm3, and V8's doubleword in each
element of it. -/
theorem test_witness_memory_forms :
    let full : State := { v7 with zmm := v7.zmm.set 3 (packed [0x1, 0xFFFFFFFF, 0x80000000, 0x12345678]) }
    let each : State := { v7 with zmm := v7.zmm.set 3 (packed [0x80000000, 0x80000000, 0x80000000, 0x80000000]) }
    completes (exec (Instr.of .vpcmpud .v128 ⟨1, none, 2, .reg 3, .lt⟩) full) = true ∧
    completes (exec (Instr.of .vpcmpud .v128 ⟨1, none, 2, .mem (.base 0 .none), .lt⟩) full) = true ∧
    (sourceReg full .v128 3).toNat = (memRead full 0x2000 16).toNat ∧
    completes (exec (Instr.of .vpcmpud .v128 ⟨1, none, 2, .reg 3, .lt⟩) each) = true ∧
    completes (exec (Instr.of .vpcmpud .v128 ⟨1, none, 2, .bcst (.base 0 (.disp8 2)), .lt⟩) each) = true ∧
    (∀ j, j < 4 → ((readZmm each 3).extractLsb' (32 * j) 32).toNat = (memRead each 0x2008 4).toNat) := by decide +kernel

/-- For `DisabledStateRaisesUD` and both clauses of `MissingFeaturesRaiseUD` (V12). -/
theorem test_witness_ud :
    let noVL : State := { v1 with params := { v1.params with hasAvx512vl := false, hasAvx10_1 := false } }
    let noF : State := { v1 with params := { v1.params with hasAvx512f := false, hasAvx10_1 := false } }
    let off : State := { v1 with params := { v1.params with stateEnabled := false } }
    completes (exec (.vpcmpud512 ⟨1, none, 2, .reg 3, .lt⟩) noVL) = true ∧
    faultOf (exec (.vpcmpud128 ⟨1, none, 2, .reg 3, .lt⟩) noVL) = some (.ud 0xFFFFFFF0) ∧
    faultOf (exec (.vpcmpd256 ⟨1, none, 2, .reg 3, .lt⟩) noVL) = some (.ud 0xFFFFFFF0) ∧
    faultOf (exec (.vpcmpd512 ⟨1, none, 2, .reg 3, .lt⟩) noF) = some (.ud 0xFFFFFFF0) ∧
    faultOf (exec (.vpcmpd512 ⟨1, none, 2, .reg 3, .lt⟩) off) = some (.ud 0xFFFFFFF0) := by decide +kernel

/-- The state of V13: RAX one byte too high for a 64-byte operand. -/
def v13 : State :=
  { State.reset with
    gpr := State.reset.gpr.set 0 0x2FC1#64, params := { State.reset.params with accessible := [⟨0x2000, 0x1000⟩] } }

/-- For `InaccessibleOperandRaisesMemFault` (V13): a full operand; a broadcast operand without `AC_CHECK`, and with it at
a multiple of 4. -/
theorem test_witness_memfault :
    let far : State := { v13 with gpr := v13.gpr.set 0 0x3000#64, params := { v13.params with acCheck := true } }
    hasFeatures v13.params .v512 = true ∧
    faultOf (exec (.vpcmpud512 ⟨1, none, 2, .mem (.base 0 .none), .nlt⟩) v13)
      = some (.memFault 0x2FC1 64 0xFFFFFFF0) ∧
    faultOf (exec (.vpcmpud512 ⟨1, none, 2, .bcst (.base 0 (.disp8 0x0F)), .nlt⟩) v13)
      = some (.memFault 0x2FFD 4 0xFFFFFFF0) ∧
    faultOf (exec (.vpcmpd128 ⟨1, none, 2, .bcst (.base 0 .none), .nlt⟩) far)
      = some (.memFault 0x3000 4 0xFFFFFFF0) := by decide +kernel

/-- For `AlignmentCheckOnlyOnBroadcast` and `MisalignedBroadcastRaisesAC` (V14); the full operand at that address
completes. -/
theorem test_witness_ac :
    let odd : State := { v7 with gpr := v7.gpr.set 0 0x2001#64, params := { v7.params with acCheck := true } }
    faultOf (exec (.vpcmpud128 ⟨1, none, 2, .bcst (.base 0 (.disp8 2)), .lt⟩) odd) = some (.ac 0xFFFFFFF0) ∧
    completes (exec (.vpcmpud128 ⟨1, none, 2, .mem (.base 0 .none), .lt⟩) odd) = true := by decide +kernel

/-- For both clauses of `MissingVectorRegisterIsRefused`: 16 vector registers, operands 15 and 16. -/
theorem test_witness_missing_register :
    let few : State := { v1 with zmm := v1.zmm.take 16, params := { v1.params with numZmm := 16 } }
    refusalOf (exec (.vpcmpud128 ⟨1, none, 16, .reg 3, .lt⟩) few) = some (.noSuchVectorRegister 16) ∧
    refusalOf (exec (.vpcmpud128 ⟨1, none, 15, .reg 16, .lt⟩) few) = some (.noSuchVectorRegister 16) ∧
    completes (exec (.vpcmpud128 ⟨1, none, 15, .reg 15, .lt⟩) few) = true := by decide +kernel

/-- The first instruction of program P1 at `pc`, where the whole space is accessible. -/
def p1AtPc : State := p1.withFetchWord 56 0x05C91E487DF362

/-- For `StepRunsTheDecodedInstruction`, `EncodedInstructionAtPcRuns`, `PlacedInstructionRunsNext`,
`StepChangesOneOpmaskAndPc` and `StepKeepsTheInvariant`: program P1's first step. -/
theorem test_witness_step :
    let i := Instr.vpcmpud512 ⟨1, none, 0, .reg 1, .nlt⟩
    accessible p1AtPc.params p1AtPc.pc (lengthAtPc p1AtPc) = true ∧
    decode .refuse (readBytes p1AtPc p1AtPc.pc (lengthAtPc p1AtPc)) = .ok (i, []) ∧
    i.wf = true ∧ readBytes p1AtPc p1AtPc.pc i.length = encode i ∧
    Memory.wf p1.mem = true ∧ p1.params.reservedImm8 = .refuse ∧ decodeTableWord 56 0x05C91E487DF362 = some i ∧
    p1AtPc.wf = true ∧ kAfter (step p1AtPc) 1 = some 0xFFF8 := by decide +kernel

/-- `withFetchWord` makes its bytes accessible where they are not, also across the top of the address space. -/
theorem test_withFetchWord_admits :
    let blind : State := { p1 with pc := 0xFFFFFFFFFFFFFFFC, params := { p1.params with accessible := [] } }
    kAfter (step (blind.withFetchWord 56 0x05C91E487DF362)) 1 = some 0xFFF8 := by decide +kernel

/-- For `FetchFaultsBeforeDecoding`, the fetch clauses of `FaultsNameTheirPcAndAccess`, and `RefusalsOfAStep`: the first 7 bytes not accessible;
7 accessible and an instruction of 8; the zeros that reset memory holds. -/
theorem test_witness_fetch :
    let none_ : State := { v1 with params := { v1.params with accessible := [⟨0xFFFFFFF0, 6⟩] } }
    let short : State :=
      { v1.withFetchWord 64 0x0601481E486DF362 with params := { v1.params with accessible := [⟨0xFFFFFFF0, 7⟩] } }
    faultOf (step none_) = some (.memFault 0xFFFFFFF0 7 0xFFFFFFF0) ∧
    (accessible short.params short.pc 7 = true ∧ faultOf (step short) = some (.memFault 0xFFFFFFF0 8 0xFFFFFFF0)) ∧
    (accessible State.reset.params State.reset.pc (lengthAtPc State.reset) = true ∧
      refusalOf (step State.reset) = some (.undecodable .notInScope)) := by decide +kernel

/-- For `StraightLineRunEndsOrStops`: the two instructions of program P1, which complete; and one instruction that stops,
since its operand is not accessible. -/
theorem test_witness_straight_line :
    let is : List Instr := [.vpcmpud512 ⟨1, none, 0, .reg 1, .nlt⟩, .vpcmpud512 ⟨2, some 1, 0, .reg 2, .lt⟩]
    let s := memWrite { p1 with pc := 0x401000, zmm := p1.zmm.set 2 (packed (List.replicate 16 0xC0000000)) } 0x401000 14
      0x01D21E497DF36205C91E487DF362
    let stop := Instr.vpcmpud512 ⟨1, none, 2, .mem (.base 0 .none), .nlt⟩
    let t := memWrite { v13 with pc := 0x2000 } 0x2000 7 0x05081E486DF362
    ((∀ i ∈ is, i.wf = true) ∧ programPlaced s s.pc (is.flatMap encode) = true ∧
      kAfter (runSteps 2 s) 2 = some 0x0FF8) ∧
    (stop.wf = true ∧ programPlaced t t.pc (encode stop) = true ∧
      faultOf (runSteps 1 t) = some (.memFault 0x2FC1 64 0x2000)) := by decide +kernel

/-- For `FaultsNameTheirPcAndAccess`: a step that ends in UD (E1 with the state disabled), in AC (V14), and in a MemFault
of its operand (V13). -/
theorem test_witness_step_faults :
    let off : State := { v1.withFetchWord 56 0x01CB1E486DF362 with params := { v1.params with stateEnabled := false } }
    let odd : State := { v7 with gpr := v7.gpr.set 0 0x2001#64, params := { v7.params with acCheck := true } }
    faultOf (step off) = some (.ud 0xFFFFFFF0) ∧
    faultOf (step (odd.withFetchWord 64 0x0102481E186DF362)) = some (.ac 0xFFFFFFF0) ∧
    faultOf (step (v13.withFetchWord 56 0x05081E486DF362)) = some (.memFault 0x2FC1 64 0xFFFFFFF0) := by decide +kernel

/-- For `MemReadIsLittleEndian` and `WrittenBytesReadBack`: a range across the top of the address space, its last byte and
the byte after it. -/
theorem test_witness_memory :
    Memory.wf v7.mem = true ∧ (4 ≤ 2 ^ 64) ∧ (3 < 4 ∧ 7 < 8) ∧ 4 * 15 + 4 ≤ 64 ∧
    (memRead (memWrite v7 0xFFFFFFFFFFFFFFFE 4 0x04030201) 0xFFFFFFFFFFFFFFFE 4).toNat = 0x04030201 ∧
    (∀ i, i < 4 → (2#64) ≠ 0xFFFFFFFFFFFFFFFE#64 + BitVec.ofNat 64 i) := by decide +kernel

end Sys2Proof.Tests
end

section
/-! SUPPORT. A missing vector register and `MemWrite` (00_scope.md R6, R8): what a compare does when it names a register at
or above `NUM_ZMM`, and how the bytes of memory read after a write of a range. -/

namespace Sys2Proof.Machine

/-! ### A missing vector register (log entry 3) -/

/-- A register at or above `NUM_ZMM` is missing. -/
theorem missingVReg_of_le {p : Params} {n : VReg} (h : p.numZmm ≤ n.val) : missingVReg p n = some n :=
  if_neg (Nat.not_lt.2 h)

/-- A register below `NUM_ZMM` is not missing. -/
theorem missingVReg_of_lt {p : Params} {n : VReg} (h : n.val < p.numZmm) : missingVReg p n = none := if_pos h

/-- A missing first source is the first missing operand, whatever the second source. -/
theorem missingOperand_of_missing_src1 {p : Params} {o : OpEnA} (h : p.numZmm ≤ o.src1.val) :
    missingOperand p o = some o.src1 := by
  rw [missingOperand, missingVReg_of_le h, Option.some_or]

/-- Where the first source exists, a missing second source register is the first missing operand. -/
theorem missingOperand_of_missing_src2 {p : Params} {o : OpEnA} {n : VReg} (h1 : o.src1.val < p.numZmm)
    (hs : o.src2 = .reg n) (h2 : p.numZmm ≤ n.val) : missingOperand p o = some n := by
  rw [missingOperand, missingVReg_of_lt h1, Option.none_or, hs, Src2.missing, missingVReg_of_le h2]

/-- State enabled and features present is all that the check before `raise UD` asks (R111, R112). -/
theorem usable_of_enabled {p : Params} {vl : VecLen} (he : p.stateEnabled = true) (hf : hasFeatures p vl = true) :
    usable p vl = true := by
  rw [usable, he, hf, Bool.and_self]

/-- An instruction that passes the `UD` checks is refused by its first missing operand's name. -/
theorem exec_of_missingOperand {i : Instr} {s : State} {n : VReg} (hu : usable s.params i.vl = true)
    (hm : missingOperand s.params i.operands = some n) : exec i s = .refused (.noSuchVectorRegister n) := by
  rw [exec_eq]
  rcases comparePacked_cases i.op i.vl i.operands s with ⟨hu', -⟩ | ⟨-, m, hm', he⟩ | ⟨-, hm', -⟩
  · cases hu.symm.trans hu'
  · cases hm.symm.trans hm'
    exact he
  · cases hm.symm.trans hm'

/-! ### Reads after `MemWrite` (R8, R30, R33) -/

/-- A byte outside the written range reads as before. -/
theorem readByte_memWrite_of_outside : ∀ (n : Nat) {s : State} (a : Word) (v : Nat) {b : Word},
    Memory.wf s.mem = true → (∀ i, i < n → b ≠ a + BitVec.ofNat 64 i) →
    readByte (memWrite s a n v) b = readByte s b
  | 0, _, _, _, _, _, _ => rfl
  | n + 1, s, a, v, b, hm, hb => by
    have hfirst : b ≠ a := by simpa using hb 0 (Nat.succ_pos n)
    have hlater : ∀ i, i < n → b ≠ a + 1#64 + BitVec.ofNat 64 i := fun i hi => by
      simpa only [word_add_succ] using hb (i + 1) (Nat.succ_lt_succ hi)
    rw [memWrite, readByte_memWrite_of_outside n _ _ (writeByte_wf a _ hm) hlater, readByte_writeByte a b _ hm,
      if_neg hfirst]

/-- The later bytes of a range of at most 2^64 bytes do not come round to its first. -/
theorem word_ne_add_of_lt (a : Word) {n i : Nat} (hn : n < 2 ^ 64) (hi : i < n) :
    a ≠ a + 1#64 + BitVec.ofNat 64 i := by
  rw [word_add_succ, Ne, BitVec.self_eq_add_right, ← BitVec.toNat_inj, BitVec.toNat_ofNat, BitVec.toNat_ofNat]
  omega

/-- A little-endian value is its upper bytes before its lowest one. -/
theorem ofNat_div_append_ofNat (n v : Nat) :
    BitVec.ofNat (8 * n) (v / 256) ++ BitVec.ofNat 8 v = BitVec.ofNat (8 * n + 8) v := by
  refine BitVec.eq_of_getLsbD_eq fun j hj => ?_
  rw [BitVec.getLsbD_append, BitVec.getLsbD_ofNat, BitVec.getLsbD_ofNat, BitVec.getLsbD_ofNat]
  by_cases h8 : j < 8
  · simp [h8, hj]
  · have hdiv : (v / 256).testBit (j - 8) = v.testBit j := by
      rw [show 256 = 2 ^ 8 from rfl, Nat.testBit_div_two_pow, Nat.sub_add_cancel (Nat.not_lt.1 h8)]
    simp [h8, hj, hdiv, show j - 8 < 8 * n by omega]

/-- `MemRead` gives back what `MemWrite` stored at the same bytes. -/
theorem memRead_memWrite_same : ∀ (n : Nat) {s : State} (a : Word) (v : Nat), Memory.wf s.mem = true → n ≤ 2 ^ 64 →
    memRead (memWrite s a n v) a n = BitVec.ofNat (8 * n) v
  | 0, _, _, _, _, _ => (BitVec.eq_nil _).trans (BitVec.eq_nil _).symm
  | n + 1, s, a, v, hm, hn => by
    have hw := writeByte_wf a (BitVec.ofNat 8 v) hm
    have hfirst : readByte (memWrite (writeByte s a (BitVec.ofNat 8 v)) (a + 1#64) n (v / 256)) a
        = BitVec.ofNat 8 v := by
      rw [readByte_memWrite_of_outside n _ _ hw fun i hi => word_ne_add_of_lt a hn hi, readByte_writeByte a a _ hm,
        if_pos rfl]
    rw [memWrite, memRead, hfirst, memRead_memWrite_same n _ _ hw (by omega)]
    exact ofNat_div_append_ofNat n v

/-! ### The statements -/

/-- Settles O43: the checks before `raise UD` pass, and the register is the first missing operand. -/
theorem missingVectorRegisterIsRefused : Obligations.MissingVectorRegisterIsRefused := by
  unfold Obligations.MissingVectorRegisterIsRefused
  intro i s he hf
  have hu := usable_of_enabled he hf
  exact ⟨fun h1 => exec_of_missingOperand hu (missingOperand_of_missing_src1 h1),
    fun n h1 hs h2 => exec_of_missingOperand hu (missingOperand_of_missing_src2 h1 hs h2)⟩

/-- Settles O55: by induction on the number of bytes, the first byte standing outside the range of the later ones. -/
theorem writtenBytesReadBack : Obligations.WrittenBytesReadBack := by
  unfold Obligations.WrittenBytesReadBack
  intro s addr n v hm hn
  exact ⟨memRead_memWrite_same n addr v hm hn, fun b hb => readByte_memWrite_of_outside n addr v hm hb,
    memWrite_wf n addr v hm⟩

end Sys2Proof.Machine
end

section
/-! SUPPORT. The state of an instruction that completes (10_state.md, 40_vpcmpud.md R81, R86): the invariant that it
keeps, and the parts of the state that it reads. -/

namespace Sys2Proof.Machine

/-! ### The invariant -/

/-- The four parts of the invariant. -/
theorem wf_iff (s : State) : s.wf = true ↔ 16 ≤ s.params.maxKL ∧ (∀ n : KReg, s.k[n] < 2 ^ s.params.maxKL) ∧
    s.zmm.length = s.params.numZmm ∧ Memory.wf s.mem = true := by
  simp only [State.wf, Params.wf, opmasksFit, vectorsFit, Bool.and_eq_true, decide_eq_true_eq, and_assoc]

/-- Writing a value below a bound keeps an opmask register below it. -/
theorem getElem_set_lt {k : Vector Nat 8} {d n : KReg} {r b : Nat} (hk : k[n] < b) (hr : r < b) :
    (k.set d r)[n] < b := by
  rw [Fin.getElem_fin, Vector.getElem_set]
  split
  · exact hr
  · exact hk

/-- Writing a `MAX_KL`-bit value to the destination keeps the invariant (R14). -/
theorem afterCompare_wf {s : State} {o : OpEnA} {r : Nat} (hs : s.wf = true) (hr : r < 2 ^ s.params.maxKL) :
    (afterCompare s o r).wf = true := by
  obtain ⟨hp, hk, hz, hm⟩ := (wf_iff s).1 hs
  exact (wf_iff _).2 ⟨hp, fun n => getElem_set_lt (hk n) hr, hz, hm⟩

/-! ### Completion -/

/-- An instruction that completes has written a `MAX_KL`-bit value to its destination and advanced `pc`; nothing else
(R14, R86). -/
theorem exec_next {i : Instr} {s t : State} (h : exec i s = .next t) :
    ∃ r, r < 2 ^ s.params.maxKL ∧ t = afterCompare s i.operands r := by
  rw [exec_eq] at h
  obtain ⟨-, -, c, -, ht⟩ := comparePacked_next h
  exact ⟨_, opmaskBits_lt _ _, ht⟩

/-- A compare whose checks pass and whose second source goes on completes. -/
theorem comparePacked_of_checks {op : CmpOp} {vl : VecLen} {o : OpEnA} {s : State} {c : Nat → Dword}
    (hu : usable s.params vl = true) (hm : missingOperand s.params o = none) (hc : secondSource s vl o = .next c) :
    comparePacked op vl o s = .next (completeCompare s op vl o c) := by
  simp only [comparePacked, hu, hm, hc, if_true, thenDo_next]

/-! ### What an instruction reads -/

/-- An address depends on the general registers and `pc` only (R58). -/
theorem operandAddress_congr {s s' : State} (hg : s'.gpr = s.gpr) (hpc : s'.pc = s.pc) (vl : VecLen) (o : OpEnA)
    (a : AddrMode) : operandAddress s' vl o a = operandAddress s vl o a := by
  have hr : ∀ n, readGpr s' n = readGpr s n := fun n => by rw [readGpr, readGpr, hg]
  have hi : ∀ scale index, indexValue s' scale index = indexValue s scale index := by
    intro scale index
    cases index with
    | none => rfl
    | some x => rw [indexValue, indexValue, hr]
  cases a <;> simp only [operandAddress, effectiveAddress, hr, hi, hpc]

/-- The result depends on the writemask's low KL bits and the first source's low VL bits (R14, R17). -/
theorem comparisonMask_congr {s s' : State} {vl : VecLen} {o : OpEnA} (hz : ∀ n, sourceReg s' vl n = sourceReg s vl n)
    (hk : ∀ j, j < vl.kl → writemaskBit s' o.mask j = writemaskBit s o.mask j) (op : CmpOp) (c : Nat → Dword) :
    comparisonMask s' op vl o c = comparisonMask s op vl o c :=
  maskOf_congr fun j hj => by rw [hk j hj, hz]

/-- Everything an instruction that completes reads: the parameters, its writemask's low KL bits, the low VL bits
of vector registers, its operand's address and bytes. Another state that agrees on these completes with the same
result. -/
theorem exec_congr {i : Instr} {s t : State} (h : exec i s = .next t) (s' : State) (hp : s'.params = s.params)
    (hk : ∀ j, j < i.vl.kl → writemaskBit s' i.operands.mask j = writemaskBit s i.operands.mask j)
    (hz : ∀ n, sourceReg s' i.vl n = sourceReg s i.vl n)
    (ha : ∀ a, (i.operands.src2 = .mem a ∨ i.operands.src2 = .bcst a) →
      operandAddress s' i.vl i.operands a = operandAddress s i.vl i.operands a)
    (hm : ∀ a, (i.operands.src2 = .mem a ∨ i.operands.src2 = .bcst a) →
      memRead s' (operandAddress s i.vl i.operands a) (operandBytes i.vl i.operands.src2)
        = memRead s (operandAddress s i.vl i.operands a) (operandBytes i.vl i.operands.src2)) :
    ∃ r, t = afterCompare s i.operands r ∧ exec i s' = .next (afterCompare s' i.operands r) := by
  rw [exec_eq] at h ⊢
  obtain ⟨hu, hmiss, c, hc, ht⟩ := comparePacked_next h
  refine ⟨_, ht, ?_⟩
  rw [comparePacked_of_checks (hp.symm ▸ hu) (hp.symm ▸ hmiss) (secondSource_congr hp hz ha hm hc),
    completeCompare_eq, comparisonMask_congr hz hk, hp]

/-- Two registers that agree below VL are the same source (R17). -/
theorem sourceReg_congr {s s' : State} {vl : VecLen} {n : VReg}
    (h : ∀ j, j < vl.bits → (readZmm s' n).getLsbD j = (readZmm s n).getLsbD j) :
    sourceReg s' vl n = sourceReg s vl n :=
  BitVec.eq_of_getLsbD_eq fun j hj => by
    rw [sourceReg, sourceReg, BitVec.getLsbD_setWidth, BitVec.getLsbD_setWidth, h j hj]

/-- A writemask bit depends on that bit of the opmask register that is named (R57). -/
theorem writemaskBit_congr {s s' : State} {mask : Option KReg} {j : Nat} (hp : s'.params = s.params)
    (h : ∀ n, mask = some n → s'.k[n].testBit j = s.k[n].testBit j) :
    writemaskBit s' mask j = writemaskBit s mask j := by
  cases mask with
  | none => rfl
  | some n => rw [writemaskBit, writemaskBit, testBit_readK, testBit_readK, hp, h n rfl]

/-! ### The statements -/

/-- Settles O50: a step is one instruction, which writes a `MAX_KL`-bit value to its destination. -/
theorem stepKeepsTheInvariant : Obligations.StepKeepsTheInvariant := by
  unfold Obligations.StepKeepsTheInvariant
  intro s t hs h
  obtain ⟨i, rest, -, -, he⟩ := step_next h
  obtain ⟨r, hr, rfl⟩ := exec_next he
  exact afterCompare_wf hs hr

/-- Settles O52: part by part. -/
theorem resetMeetsTheInvariant : Obligations.ResetMeetsTheInvariant := by
  unfold Obligations.ResetMeetsTheInvariant
  exact (wf_iff _).2 ⟨by decide, by decide, by decide, reset_mem_wf⟩

/-- Settles O27: neither register is among what an instruction reads, nor what it writes. -/
theorem flagsNeitherReadNorWritten : Obligations.FlagsNeitherReadNorWritten := by
  unfold Obligations.FlagsNeitherReadNorWritten
  intro i s t e m h
  obtain ⟨r, rfl, h'⟩ := exec_congr h { s with eflags := e, mxcsr := m } rfl (fun _ _ => rfl) (fun _ => rfl)
    (fun a _ => operandAddress_congr rfl rfl _ _ a) (fun _ _ => memRead_congr _ _ fun _ _ => rfl)
  exact ⟨rfl, rfl, h'⟩

/-- Settles O28: `pc` is a 64-bit word, so its addition is modulo 2^64. -/
theorem pcAdvancesByTheLength : Obligations.PcAdvancesByTheLength := by
  unfold Obligations.PcAdvancesByTheLength
  intro i s t h
  obtain ⟨r, -, rfl⟩ := exec_next h
  rw [afterCompare_pc, BitVec.toNat_add, BitVec.toNat_ofNat, Nat.add_mod_mod, Instr.length]

/-- Settles O30: of the opmask registers only the writemask's low KL bits are among what an instruction reads. -/
theorem onlyTheWritemaskIsRead : Obligations.OnlyTheWritemaskIsRead := by
  unfold Obligations.OnlyTheWritemaskIsRead
  intro i s t k' hk h
  obtain ⟨r, rfl, h'⟩ := exec_congr h { s with k := k' } rfl
    (fun j hj => writemaskBit_congr rfl fun n hn => hk n hn j hj) (fun _ => rfl)
    (fun a _ => operandAddress_congr rfl rfl _ _ a) (fun _ _ => memRead_congr _ _ fun _ _ => rfl)
  have hr : (afterCompare s i.operands r).k[i.operands.dest] = r := Vector.getElem_set_self ..
  rw [h', hr]
  rfl

/-- Settles O31: a source register is cut to its low VL bits. -/
theorem upperSourceBitsAreIgnored : Obligations.UpperSourceBitsAreIgnored := by
  unfold Obligations.UpperSourceBitsAreIgnored
  intro i s t z hz h
  obtain ⟨r, rfl, h'⟩ := exec_congr h { s with zmm := z } rfl (fun _ _ => rfl) (fun n => sourceReg_congr (hz n))
    (fun a _ => operandAddress_congr rfl rfl _ _ a) (fun _ _ => memRead_congr _ _ fun _ _ => rfl)
  exact h'

/-- Settles O33: a register second source has no address, and only an address depends on general registers. -/
theorem registerFormsIgnoreGeneralRegisters : Obligations.RegisterFormsIgnoreGeneralRegisters := by
  unfold Obligations.RegisterFormsIgnoreGeneralRegisters
  intro i s t n g hs h
  have hreg : ∀ a, ¬ (i.operands.src2 = .mem a ∨ i.operands.src2 = .bcst a) := fun a => by simp [hs]
  obtain ⟨r, rfl, h'⟩ := exec_congr h { s with gpr := g } rfl (fun _ _ => rfl) (fun _ => rfl)
    (fun a ha => absurd ha (hreg a)) (fun _ _ => memRead_congr _ _ fun _ _ => rfl)
  exact h'

end Sys2Proof.Machine
end

section
/-! SUPPORT. Decoded instructions are well formed (30_encoding.md R57, R58): each check of WellFormed from the field
that decides it. -/

namespace Sys2Proof

/-! ### Register fields -/

/-- A general register's low three bits are the field's (R58). -/
theorem gregOf_mod_eight (ext : BitVec 1) (low : BitVec 3) : (gregOf ext low).val % 8 = low.toNat := by
  have hlow := low.isLt
  have hval : (gregOf ext low).val = ext.toNat * 8 + low.toNat := by
    rw [gregOf, BitVec.val_toFin, BitVec.toNat_append, ← Nat.shiftLeft_add_eq_or_of_lt hlow, Nat.shiftLeft_eq]
  omega

/-- `aaa = 000` is no writemask, so k0 is none (R57). -/
theorem maskWf_mask (f : Fields) : maskWf f.mask = true := by
  unfold Fields.mask
  split
  · rfl
  next h => exact decide_eq_true fun h0 => h (BitVec.toFin_inj.1 h0)

/-- `X ++ index = 0100` is no index register, so RSP is none (R58). -/
theorem indexWf_indexOf (x : BitVec 1) (index : BitVec 3) : indexWf (indexOf x index) = true := by
  unfold indexOf
  split
  · rfl
  next h => exact decide_eq_true h

/-- Where a memory operand has no SIB byte, ModRM.rm is not 100 (R50). -/
theorem plainBaseWf_gregOf {modrm : Byte} (hm : modOf modrm ≠ 0b11#2) (hs : hasSib modrm = false) (ext : BitVec 1) :
    plainBaseWf (gregOf ext (rmOf modrm)) = true := by
  have hrm : rmOf modrm ≠ 0b100#3 := fun h => by simp [hasSib, hm, h] at hs
  rw [plainBaseWf, gregOf_mod_eight]
  exact decide_eq_true fun h => hrm (BitVec.eq_of_toNat_eq h)

/-! ### The displacement (R60) -/

/-- A memory operand takes no displacement only under `mod = 00` and with a base register. -/
theorem mod_zero_of_dispSize_eq_zero {modrm sib : Byte} (hm : modOf modrm ≠ 0b11#2) (h : dispSize modrm sib = 0) :
    modOf modrm = 0b00#2 ∧ isBaseless modrm sib = false := by
  unfold dispSize at h
  split at h
  · cases h
  next h1 =>
    split at h
    · cases h
    next h2 =>
      split at h
      · cases h
      next h3 =>
        refine ⟨?_, by simpa using h3⟩
        rw [beq_iff_eq] at h1 h2
        revert hm h1 h2
        generalize modOf modrm = m
        revert m
        decide

/-- Where `mod = 00` and the operand has a base, the field that names the base is not 101 (R58). -/
theorem rm_ne_of_not_isBaseless {modrm sib : Byte} (hm : modOf modrm = 0b00#2) (h : isBaseless modrm sib = false) :
    rmOf modrm ≠ 0b101#3 ∧ (rmOf modrm = 0b100#3 → rmOf sib ≠ 0b101#3) := by
  constructor
  · intro h5
    simp [isBaseless, hm, h5] at h
  · intro h4 h5
    simp [isBaseless, hm, h4, h5] at h

/-- A base of another field than 101 may stand with any displacement, one of field 101 with `disp8` and `disp32` (R58,
R60). -/
theorem bareBaseWf_gregOf {d : Disp} {low : BitVec 3} (h : d = .none → low ≠ 0b101#3) (ext : BitVec 1) :
    bareBaseWf (gregOf ext low) d = true := by
  cases d with
  | none =>
    rw [bareBaseWf, gregOf_mod_eight]
    exact decide_eq_true fun he => h rfl (BitVec.eq_of_toNat_eq he)
  | disp8 d => rfl
  | disp32 d => rfl

/-! ### The address form and the second source (R56, R58) -/

/-- The address form of a memory operand whose SIB byte and displacement were taken as its ModRM byte asks is well
formed. -/
theorem addrMode_wf {f : Fields} {bs bs' rest : List Byte} (hm : modOf f.modrm ≠ 0b11#2)
    (hs : takeSib f.modrm bs = some (f.sib, bs'))
    (hd : takeDisp (dispSize f.modrm (f.sib.getD 0#8)) bs' = some (f.disp, rest)) : f.addrMode.wf = true := by
  have hbase : f.disp = .none →
      rmOf f.modrm ≠ 0b101#3 ∧ (rmOf f.modrm = 0b100#3 → rmOf (f.sib.getD 0#8) ≠ 0b101#3) := by
    intro hnone
    rcases takeDisp_eq_some hd with ⟨h0, -, -⟩ | ⟨-, _, hd8, -⟩ | ⟨-, _, _, _, _, hd32, -⟩
    · obtain ⟨hmod, hb⟩ := mod_zero_of_dispSize_eq_zero hm h0
      exact rm_ne_of_not_isBaseless hmod hb
    · cases hnone.symm.trans hd8
    · cases hnone.symm.trans hd32
  rcases takeSib_eq_some hs with ⟨hsib, x, hx, -⟩ | ⟨hsib, hx, -⟩
  · have hrm : rmOf f.modrm = 0b100#3 := by
      simp only [hasSib, Bool.and_eq_true, beq_iff_eq] at hsib
      exact hsib.2
    simp only [Fields.addrMode, hx, Option.getD_some] at hbase ⊢
    split
    · exact indexWf_indexOf _ _
    · rw [AddrMode.wf, indexWf_indexOf, bareBaseWf_gregOf fun h => (hbase h).2 hrm, Bool.and_self]
  · simp only [Fields.addrMode, hx]
    split
    · rfl
    · rw [AddrMode.wf, plainBaseWf_gregOf hm hsib, bareBaseWf_gregOf fun h => (hbase h).1, Bool.and_self]

/-- The second source of split fields is well formed: a register, or the address form with or without broadcast. -/
theorem src2_wf {p0 p1 p2 : Byte} {tail rest : List Byte} {f : Fields}
    (h : splitFields p0 p1 p2 tail = some (f, rest)) : f.src2.wf = true := by
  obtain ⟨bs, bs', -, hs, hd, -, -, -⟩ := splitFields_eq_some h
  unfold Fields.src2
  split
  · rfl
  next hr =>
    have hm : modOf f.modrm ≠ 0b11#2 := fun h11 => hr (beq_iff_eq.2 h11)
    split <;> exact addrMode_wf hm hs hd

/-! ### The statement -/

/-- A well-formed writemask is not k0 (R15). -/
theorem mask_ne_zero_of_wf {o : OpEnA} (h : o.wf = true) : o.mask ≠ some 0 := by
  intro h0
  rw [OpEnA.wf, h0] at h
  cases h

/-- Settles O3: the writemask and the second source of an admitted instruction are those of its split fields. -/
theorem decodedInstructionsAreWellFormed : Obligations.DecodedInstructionsAreWellFormed := by
  unfold Obligations.DecodedInstructionsAreWellFormed
  intro reserved bs i rest h
  obtain ⟨b0, p0, p1, p2, opc, tail, row, f, -, -, hsplit, -, rfl⟩ := decode_eq_ok h
  have hwf : f.operands.wf = true := by
    rw [OpEnA.wf, Bool.and_eq_true]
    exact ⟨maskWf_mask f, src2_wf hsplit⟩
  rw [Instr.wf_of, Instr.operands_of]
  exact ⟨hwf, mask_ne_zero_of_wf hwf⟩

end Sys2Proof
end

section
/-! SUPPORT. The memory operand (20_memory.md R30, R31, R32, R34, R37, R38): how an access that is not admitted stops an
instruction, when two second sources give one result, and the bits of a little-endian read. -/

namespace Sys2Proof.Machine

/-! ### An access that is not admitted (R34, R38) -/

/-- Where the first source exists, a second source other than a register leaves no operand missing. -/
theorem missingOperand_of_memory {p : Params} {o : OpEnA} {a : AddrMode} (h1 : o.src1.val < p.numZmm)
    (hs : o.src2 = .mem a ∨ o.src2 = .bcst a) : missingOperand p o = none := by
  refine missingOperand_eq_none.2 ⟨h1, ?_⟩
  rcases hs with hs | hs <;> rw [hs, Src2.missing]

/-- An instruction whose checks pass faults as its second source does (R117). -/
theorem exec_of_secondSource_fault {i : Instr} {s : State} {f : Fault} (hu : usable s.params i.vl = true)
    (hm : missingOperand s.params i.operands = none) (hf : secondSource s i.vl i.operands = .fault f) :
    exec i s = .fault f := by
  simp only [exec_eq, comparePacked, hu, hm, hf, if_true, thenDo_fault]

/-- A read of bytes that are not accessible raises MemFault (R34). -/
theorem loadBytes_of_inaccessible {s : State} {ea : Word} {n : Nat} (h : accessible s.params ea n = false) :
    loadBytes s ea n = .fault (.memFault ea n s.pc) := by
  rcases loadBytes_cases s ea n with ⟨ha, -⟩ | ⟨-, hl⟩
  · cases h.symm.trans ha
  · exact hl

/-- A broadcast read that meets alignment, or without `AC_CHECK`, is the read of its 4 bytes (R38). -/
theorem loadBroadcast_of_aligned {s : State} {ea : Word} (h : s.params.acCheck = false ∨ ea.toNat % 4 = 0) :
    loadBroadcast s ea = loadBytes s ea 4 := by
  rcases loadBroadcast_cases s ea with ⟨⟨hc, ha⟩, -⟩ | ⟨-, hl⟩
  · rcases h with h | h
    · cases h.symm.trans hc
    · exact absurd h ha
  · exact hl

/-- Under `AC_CHECK` a misaligned broadcast read raises AC (R38). -/
theorem loadBroadcast_of_misaligned {s : State} {ea : Word} (hc : s.params.acCheck = true) (ha : ea.toNat % 4 ≠ 0) :
    loadBroadcast s ea = .fault (.ac s.pc) := by
  rcases loadBroadcast_cases s ea with ⟨-, hl⟩ | ⟨hn, -⟩
  · exact hl
  · exact absurd ⟨hc, ha⟩ hn

/-- A full memory operand stops as its read stops. -/
theorem secondSource_of_full_fault {s : State} {vl : VecLen} {o : OpEnA} {a : AddrMode} {f : Fault}
    (hs : o.src2 = .mem a) (h : loadFull s vl (operandAddress s vl o a) = .fault f) :
    secondSource s vl o = .fault f := by
  simp only [secondSource, hs, h, thenDo_fault]

/-- A broadcast operand stops as its read stops. -/
theorem secondSource_of_broadcast_fault {s : State} {vl : VecLen} {o : OpEnA} {a : AddrMode} {f : Fault}
    (hs : o.src2 = .bcst a) (h : loadBroadcast s (operandAddress s vl o a) = .fault f) :
    secondSource s vl o = .fault f := by
  simp only [secondSource, hs, h, thenDo_fault]

/-! ### One result from two second sources (R81) -/

/-- Instructions on one destination, writemask, first source and predicate leave the same opmask registers where
their second sources' elements below KL are the same. -/
theorem completeCompare_k_congr {s : State} {op : CmpOp} {vl : VecLen} {o : OpEnA} {x y : Src2} {c d : Nat → Dword}
    (h : ∀ j, j < vl.kl → c j = d j) :
    (completeCompare s op vl { o with src2 := x } c).k = (completeCompare s op vl { o with src2 := y } d).k := by
  have hmask : comparisonMask s op vl { o with src2 := x } c = comparisonMask s op vl { o with src2 := y } d :=
    maskOf_congr fun j hj => by rw [h j hj]
  rw [completeCompare_eq, completeCompare_eq, afterCompare_k, afterCompare_k, hmask]

/-- What an instruction that completes leaves is R81's state of its second source. -/
theorem exec_of_next {op : CmpOp} {vl : VecLen} {o : OpEnA} {s t : State}
    (h : exec (Instr.of op vl o) s = .next t) :
    ∃ c, secondSource s vl o = .next c ∧ t = completeCompare s op vl o c := by
  rw [exec_of] at h
  obtain ⟨-, -, hc⟩ := comparePacked_next h
  exact hc

/-! ### A little-endian read (R30) -/

/-- An address as a number, reduced modulo 2^64. -/
theorem ofNat_toNat_add (a : Word) (i : Nat) : BitVec.ofNat 64 (a.toNat + i) = a + BitVec.ofNat 64 i := by
  rw [BitVec.ofNat_add, BitVec.ofNat_toNat, BitVec.setWidth_eq]

/-- Bit `b` of byte `i` of a read is that bit of the byte at `a + i` (R30). -/
theorem memRead_getLsbD (s : State) {b : Nat} (hb : b < 8) : ∀ (n : Nat) (a : Word) (i : Nat), i < n →
    (memRead s a n).getLsbD (8 * i + b) = (readByte s (a + BitVec.ofNat 64 i)).getLsbD b
  | n + 1, a, 0, _ => by
    rw [memRead, BitVec.getLsbD_append]
    simp [hb]
  | n + 1, a, i + 1, hi => by
    rw [memRead, BitVec.getLsbD_append, if_neg (by omega), show 8 * (i + 1) + b - 8 = 8 * i + b by omega,
      memRead_getLsbD s hb n _ i (by omega), word_add_succ]

/-- The doubleword at `a + 4j` is element `j` of a read at `a` that holds it (R31). -/
theorem element_memRead (s : State) (a : Word) {n j : Nat} (h : 4 * j + 4 ≤ n) :
    element (memRead s a n) j = memRead s (a + BitVec.ofNat 64 (4 * j)) 4 := by
  refine BitVec.eq_of_getLsbD_eq fun k hk => ?_
  have hb : k % 8 < 8 := Nat.mod_lt _ (by decide)
  calc (element (memRead s a n) j).getLsbD k
      = (memRead s a n).getLsbD (8 * (4 * j + k / 8) + k % 8) := by
        rw [element, BitVec.getLsbD_extractLsb', decide_eq_true hk, Bool.true_and]
        congr 1; omega
    _ = (readByte s (a + BitVec.ofNat 64 (4 * j) + BitVec.ofNat 64 (k / 8))).getLsbD (k % 8) := by
        rw [memRead_getLsbD s hb n a _ (by omega), BitVec.ofNat_add, BitVec.add_assoc]
    _ = (memRead s (a + BitVec.ofNat 64 (4 * j)) 4).getLsbD k := by
        rw [← memRead_getLsbD s hb 4 _ (k / 8) (by omega), Nat.div_add_mod]

/-- A byte appended below a value is its lowest byte. -/
theorem toNat_append_byte {w : Nat} (x : BitVec w) (d : Byte) : (x ++ d).toNat = 256 * x.toNat + d.toNat := by
  rw [BitVec.toNat_append, ← Nat.shiftLeft_add_eq_or_of_lt d.isLt, Nat.shiftLeft_eq, Nat.mul_comm]

/-- The four bytes of a 32-bit displacement, lowest first, have weights 1, 2^8, 2^16 and 2^24 (R30). -/
theorem takeDisp_four_toNat (d0 d1 d2 d3 : Byte) : ∃ d : BitVec 32,
    takeDisp 4 [d0, d1, d2, d3] = some (.disp32 d, []) ∧
      d.toNat = d0.toNat + 256 * d1.toNat + 65536 * d2.toNat + 16777216 * d3.toNat := by
  refine ⟨d3 ++ d2 ++ d1 ++ d0, rfl, ?_⟩
  rw [toNat_append_byte, toNat_append_byte, toNat_append_byte]
  omega

/-! ### The statements -/

/-- Settles O32: of memory an instruction reads its operand's bytes, and a read depends on its own bytes only. -/
theorem onlyTheOperandBytesAreRead : Obligations.OnlyTheOperandBytesAreRead := by
  unfold Obligations.OnlyTheOperandBytesAreRead
  intro i s t m hbytes h
  obtain ⟨r, rfl, h'⟩ := exec_congr h { s with mem := m } rfl (fun _ _ => rfl) (fun _ => rfl)
    (fun a _ => operandAddress_congr rfl rfl _ _ a) (fun a ha => memRead_congr _ _ (hbytes a ha))
  exact h'

/-- Settles O36: the elements below KL are the register's, and the second source enters the result only by them. -/
theorem memoryFormsAgreeWithTheRegisterForm : Obligations.MemoryFormsAgreeWithTheRegisterForm := by
  unfold Obligations.MemoryFormsAgreeWithTheRegisterForm
  intro op vl o a n s t u hu
  obtain ⟨d, hd, rfl⟩ := exec_of_next hu
  have hreg : d = element (sourceReg s vl n) := secondSource_value hd
  constructor
  · intro ht heq
    obtain ⟨c, hc, rfl⟩ := exec_of_next ht
    have hcd : c = d := by
      rw [hreg, heq]
      exact secondSource_value hc
    exact completeCompare_k_congr fun j _ => congrFun hcd j
  · intro ht heq
    obtain ⟨c, hc, rfl⟩ := exec_of_next ht
    refine completeCompare_k_congr fun j hj => ?_
    rw [hreg, element_sourceReg s n hj, heq j hj]
    exact congrFun (secondSource_value hc) j

/-- Settles O39: the checks before the access pass, and the access faults; no writemask bit is asked. -/
theorem inaccessibleOperandRaisesMemFault : Obligations.InaccessibleOperandRaisesMemFault := by
  unfold Obligations.InaccessibleOperandRaisesMemFault
  intro i s a ea he hf h1
  have hu := usable_of_enabled he hf
  constructor
  · intro hs hacc
    exact exec_of_secondSource_fault hu (missingOperand_of_memory h1 (.inl hs))
      (secondSource_of_full_fault hs (loadBytes_of_inaccessible hacc))
  · intro hs hal hacc
    exact exec_of_secondSource_fault hu (missingOperand_of_memory h1 (.inr hs))
      (secondSource_of_broadcast_fault hs ((loadBroadcast_of_aligned hal).trans (loadBytes_of_inaccessible hacc)))

/-- Settles O41: the checks before the access pass, and alignment is checked before admission. -/
theorem misalignedBroadcastRaisesAC : Obligations.MisalignedBroadcastRaisesAC := by
  unfold Obligations.MisalignedBroadcastRaisesAC
  intro i s a he hf h1 hs hc ha
  exact exec_of_secondSource_fault (usable_of_enabled he hf) (missingOperand_of_memory h1 (.inr hs))
    (secondSource_of_broadcast_fault hs (loadBroadcast_of_misaligned hc ha))

/-- Settles O54: byte `i` of a read, and of a fetched list, is the byte at `addr + i`. -/
theorem memReadIsLittleEndian : Obligations.MemReadIsLittleEndian := by
  unfold Obligations.MemReadIsLittleEndian
  intro s addr n
  refine ⟨fun i b hi hb => ?_, fun i hi => ?_, takeDisp_four_toNat, fun j hj => element_memRead s addr hj⟩
  · rw [ofNat_toNat_add, memRead_getLsbD s hb n addr i hi]
  · rw [ofNat_toNat_add, readBytes_getElem? s n addr i hi]

end Sys2Proof.Machine
end

section
/-! SUPPORT. The bytes of an instruction as numbers and fields (30_encoding.md R51 to R62): what each encoded byte holds,
and that a byte is rebuilt from its fields. -/

namespace Sys2Proof

/-! ### Register numbers, indices and predicates as bits (R55 to R58, R80) -/

/-- A general register is its extension bit and its low three bits (R58). -/
theorem gregOf_gregBits (r : GReg) : gregOf ((gregBits r).extractLsb' 3 1) ((gregBits r).extractLsb' 0 3) = r :=
  congrArg BitVec.toFin (BitVec.extractLsb'_append_extractLsb' (w := 1) (len := 3))

/-- The extension bit and the low three bits of a general register are those it was put together of (R58). -/
theorem gregBits_gregOf (ext : BitVec 1) (low : BitVec 3) :
    (gregBits (gregOf ext low)).extractLsb' 3 1 = ext ∧ (gregBits (gregOf ext low)).extractLsb' 0 3 = low :=
  ⟨BitVec.extractLsb'_append_eq_left, BitVec.extractLsb'_append_eq_right⟩

/-- The low three bits of a general register, as a number. -/
theorem toNat_gregBits_low (r : GReg) : ((gregBits r).extractLsb' 0 3).toNat = r.val % 8 :=
  BitVec.extractLsb'_toNat 0 3 (gregBits r)

/-- A vector register is its two extension bits and its low three bits (R56). -/
theorem vregBits_parts (n : VReg) :
    (vregBits n).extractLsb' 4 1 ++ (vregBits n).extractLsb' 3 1 ++ (vregBits n).extractLsb' 0 3 = vregBits n := by
  revert n; decide

/-- The extension bits and the low three bits of a vector register are those it was put together of (R56). -/
theorem vregBits_toFin (x b : BitVec 1) (low : BitVec 3) :
    (vregBits (x ++ b ++ low).toFin).extractLsb' 4 1 = x ∧ (vregBits (x ++ b ++ low).toFin).extractLsb' 3 1 = b ∧
    (vregBits (x ++ b ++ low).toFin).extractLsb' 0 3 = low := by
  revert x b low; decide

/-- The four index bits name the index register, 0100 no register (R58). -/
theorem indexBits_indexOf (x : BitVec 1) (index : BitVec 3) : indexBits (indexOf x index) = x ++ index := by
  revert x index; decide

/-- An index register other than RSP is read back from its four bits (R58). -/
theorem indexOf_indexBits {index : Option GReg} (h : indexWf index = true) :
    indexOf ((indexBits index).extractLsb' 3 1) ((indexBits index).extractLsb' 0 3) = index := by
  revert index; decide

theorem Predicate.ofBits_toBits (p : Predicate) : Predicate.ofBits p.toBits = p := by cases p <;> rfl
theorem Predicate.toBits_ofBits (x : BitVec 3) : (Predicate.ofBits x).toBits = x := by revert x; decide

/-! ### Row selection (R65) -/

/-- The one match number of a mnemonic and a vector length: 62h, then P0, P1, P2 and the opcode byte with the bits that
carry operands 0 (R65). -/
def matchWord (op : CmpOp) (vl : VecLen) : BitVec 40 :=
  leadWord 0x62#8 0x03#8 0x05#8 (0#1 ++ vl.code ++ 0#5) op.opcode

/-- The table holds each mnemonic and vector length with its match number, and nothing else. -/
theorem mem_opcodeTable_iff {row : OpcodeRow} : row ∈ opcodeTable ↔ row.value = matchWord row.op row.vl := by
  constructor
  · revert row
    decide
  · obtain ⟨op, vl, value⟩ := row
    intro h
    obtain rfl : value = matchWord op vl := h
    cases op <;> cases vl <;> decide

/-- A row is selected exactly when the mask leaves its match number (R65). -/
theorem selectRow_eq_some_iff {w : BitVec 40} {op : CmpOp} {vl : VecLen} {value : BitVec 40} :
    selectRow w = some ⟨op, vl, value⟩ ↔ value = matchWord op vl ∧ w &&& opcodeMask = matchWord op vl := by
  constructor
  · intro h
    obtain ⟨hmem, hw⟩ := selectRow_eq_some h
    have hv := mem_opcodeTable_iff.1 hmem
    exact ⟨hv, hw.trans hv⟩
  · rintro ⟨rfl, hw⟩
    unfold selectRow
    rw [hw]
    cases op <;> cases vl <;> decide

/-- The number of five bytes, byte +0 most significant (R65). -/
theorem toNat_leadWord (b0 p0 p1 p2 opc : Byte) : (leadWord b0 p0 p1 p2 opc).toNat =
    b0.toNat * 2 ^ 32 + p0.toNat * 2 ^ 24 + p1.toNat * 2 ^ 16 + p2.toNat * 2 ^ 8 + opc.toNat := by
  rw [leadWord, Machine.toNat_append_byte, Machine.toNat_append_byte, Machine.toNat_append_byte,
    Machine.toNat_append_byte]
  omega

/-- Five bytes are determined by their number. -/
theorem leadWord_inj {b0 p0 p1 p2 opc b0' p0' p1' p2' opc' : Byte} :
    leadWord b0 p0 p1 p2 opc = leadWord b0' p0' p1' p2' opc' ↔
      b0 = b0' ∧ p0 = p0' ∧ p1 = p1' ∧ p2 = p2' ∧ opc = opc' := by
  constructor
  · intro h
    have hn := congrArg BitVec.toNat h
    rw [toNat_leadWord, toNat_leadWord] at hn
    refine ⟨?_, ?_, ?_, ?_, ?_⟩ <;> bv_omega
  · rintro ⟨rfl, rfl, rfl, rfl, rfl⟩
    rfl

/-- The mask keeps byte +0, the low four bits of P0, bits 7 and 2:0 of P1, bits 6:5 of P2, and the opcode byte (R65). -/
theorem leadWord_and_opcodeMask (b0 p0 p1 p2 opc : Byte) :
    leadWord b0 p0 p1 p2 opc &&& opcodeMask = leadWord b0 (p0 &&& 0x0F#8) (p1 &&& 0x87#8) (p2 &&& 0x60#8) opc := by
  have hmask : opcodeMask = leadWord 0xFF#8 0x0F#8 0x87#8 0x60#8 0xFF#8 := by decide
  have hones (b : Byte) : b &&& 0xFF#8 = b := BitVec.and_allOnes
  have hand (b c d e f b' c' d' e' f' : Byte) :
      leadWord b c d e f &&& leadWord b' c' d' e' f'
        = leadWord (b &&& b') (c &&& c') (d &&& d') (e &&& e') (f &&& f') := by
    unfold leadWord
    rw [← BitVec.and_append, ← BitVec.and_append, ← BitVec.and_append]
    exact BitVec.and_append
  rw [hmask, hand, hones, hones]

/-- The three payload bytes hold the fixed fields of the forms with this vector length: `mmm = 011` and bit 3 of P0, `W`,
`pp = 01` and bit 2 of P1, `L'L` in P2 (R52, R53). -/
def FixedFields (vl : VecLen) (p0 p1 p2 : Byte) : Prop :=
  p0 &&& 0x0F#8 = 0x03#8 ∧ p1 &&& 0x87#8 = 0x05#8 ∧ p2 &&& 0x60#8 = 0#1 ++ vl.code ++ 0#5

/-- Five bytes select a form exactly when they are 62h, three payload bytes with the form's fixed fields, and its opcode
byte (R65). -/
theorem selectRow_leadWord_iff {b0 p0 p1 p2 opc : Byte} {op : CmpOp} {vl : VecLen} {value : BitVec 40} :
    selectRow (leadWord b0 p0 p1 p2 opc) = some ⟨op, vl, value⟩ ↔
      value = matchWord op vl ∧ b0 = 0x62#8 ∧ FixedFields vl p0 p1 p2 ∧ opc = op.opcode := by
  rw [selectRow_eq_some_iff, leadWord_and_opcodeMask]
  simp only [matchWord, leadWord_inj, FixedFields, and_assoc]

/-! ### The bytes that carry operands (R51, R54, R62) -/

/-- What an encoded P0 holds: X̄, B̄, the two stored bits that must be 1, and its fixed fields. -/
theorem encodeP0_fields (r : RmParts) :
    (encodeP0 r).extractLsb' 6 1 = r.xBar ∧ (encodeP0 r).extractLsb' 5 1 = r.bBar ∧
    (encodeP0 r).getLsbD 7 = true ∧ (encodeP0 r).getLsbD 4 = true ∧ encodeP0 r &&& 0x0F#8 = 0x03#8 := by
  unfold encodeP0
  generalize r.xBar = x
  generalize r.bBar = b
  revert x b
  decide

/-- P0 is rebuilt from X̄ and B̄ where the other bits are as admitted. -/
theorem encodeP0_eq {r : RmParts} {p0 : Byte} (hx : p0.extractLsb' 6 1 = r.xBar) (hb : p0.extractLsb' 5 1 = r.bBar)
    (h7 : p0.getLsbD 7 = true) (h4 : p0.getLsbD 4 = true) (h : p0 &&& 0x0F#8 = 0x03#8) : encodeP0 r = p0 := by
  rw [encodeP0, ← hx, ← hb]
  clear hx hb
  revert p0
  decide

/-- What an encoded P1 holds: vvvv stored inverted, and its fixed fields. -/
theorem encodeP1_fields (n : VReg) :
    (encodeP1 n).extractLsb' 3 4 = ~~~ (vregBits n).extractLsb' 0 4 ∧ encodeP1 n &&& 0x87#8 = 0x05#8 := by
  unfold encodeP1
  generalize ~~~ (vregBits n).extractLsb' 0 4 = v
  revert v
  decide

/-- P1 is rebuilt from vvvv where the other bits are as admitted. -/
theorem encodeP1_eq {n : VReg} {p1 : Byte} (hv : p1.extractLsb' 3 4 = ~~~ (vregBits n).extractLsb' 0 4)
    (h : p1 &&& 0x87#8 = 0x05#8) : encodeP1 n = p1 := by
  rw [encodeP1, ← hv]
  clear hv
  revert p1
  decide

/-- What an encoded P2 holds: `b`, V̄', `aaa`, `z = 0`, and its fixed field. -/
theorem encodeP2_fields (vl : VecLen) (r : RmParts) (n : VReg) (mask : Option KReg) :
    (encodeP2 vl r n mask).extractLsb' 4 1 = r.bcst ∧
    (encodeP2 vl r n mask).extractLsb' 3 1 = ~~~ (vregBits n).extractLsb' 4 1 ∧
    (encodeP2 vl r n mask).extractLsb' 0 3 = maskBits mask ∧ (encodeP2 vl r n mask).getLsbD 7 = false ∧
    encodeP2 vl r n mask &&& 0x60#8 = 0#1 ++ vl.code ++ 0#5 := by
  unfold encodeP2
  generalize vl.code = c
  generalize r.bcst = b
  generalize ~~~ (vregBits n).extractLsb' 4 1 = v
  generalize maskBits mask = a
  revert c b v a
  decide

/-- P2 is rebuilt from `b`, V̄' and `aaa` where the other bits are as admitted. -/
theorem encodeP2_eq {vl : VecLen} {r : RmParts} {n : VReg} {mask : Option KReg} {p2 : Byte}
    (hb : p2.extractLsb' 4 1 = r.bcst) (hv : p2.extractLsb' 3 1 = ~~~ (vregBits n).extractLsb' 4 1)
    (ha : p2.extractLsb' 0 3 = maskBits mask) (h7 : p2.getLsbD 7 = false)
    (h : p2 &&& 0x60#8 = 0#1 ++ vl.code ++ 0#5) : encodeP2 vl r n mask = p2 := by
  have hc : vl.code = p2.extractLsb' 5 2 := by
    generalize vl.code = c at h
    clear hb hv ha h7
    revert c p2
    decide
  rw [encodeP2, hc, ← hb, ← hv, ← ha]
  clear hb hv ha hc h
  revert p2
  decide

/-- What an encoded ModRM byte holds (R54, R56). -/
theorem encodeModRM_fields (r : RmParts) (d : KReg) :
    modOf (encodeModRM r d) = r.mod ∧ regOf (encodeModRM r d) = BitVec.ofFin d ∧ rmOf (encodeModRM r d) = r.rm := by
  unfold encodeModRM
  generalize r.mod = m
  generalize r.rm = x
  generalize (BitVec.ofFin d : BitVec 3) = y
  revert m x y
  decide

/-- A byte is its ModRM fields. -/
theorem modOf_append_regOf_append_rmOf (b : Byte) : modOf b ++ regOf b ++ rmOf b = b := by
  revert b
  decide

/-- What an encoded SIB byte holds (R58). -/
theorem sibByte_fields (scale : BitVec 2) (index : Option GReg) (base : BitVec 3) :
    (sibByte scale index base).extractLsb' 6 2 = scale ∧
    (sibByte scale index base).extractLsb' 3 3 = (indexBits index).extractLsb' 0 3 ∧
    rmOf (sibByte scale index base) = base := by
  unfold sibByte
  generalize (indexBits index).extractLsb' 0 3 = i
  revert scale i base
  decide

/-- What an encoded imm8 holds (R62, R66). -/
theorem encodeImm8_fields (p : Predicate) :
    (encodeImm8 p).extractLsb' 0 3 = p.toBits ∧ (encodeImm8 p).extractLsb' 3 5 = 0#5 := by
  cases p <;> decide

/-- An imm8 without reserved bits is rebuilt from its predicate. -/
theorem encodeImm8_ofBits {imm8 : Byte} (h : imm8.extractLsb' 3 5 = 0#5) :
    encodeImm8 (Predicate.ofBits (imm8.extractLsb' 0 3)) = imm8 := by
  rw [encodeImm8, Predicate.toBits_ofBits, ← h]
  exact BitVec.extractLsb'_append_extractLsb' (w := 5) (len := 3)

/-! ### A 32-bit displacement (R30) -/

/-- Four bytes as one number, the last one least significant. -/
theorem toNat_dword (d0 d1 d2 d3 : Byte) : (d3 ++ d2 ++ d1 ++ d0 : BitVec 32).toNat =
    d0.toNat + 256 * d1.toNat + 65536 * d2.toNat + 16777216 * d3.toNat := by
  obtain ⟨d, hd, hn⟩ := Machine.takeDisp_four_toNat d0 d1 d2 d3
  cases hd
  exact hn

/-- A displacement is rebuilt from its four bytes. -/
theorem append_disp32Bytes (d : BitVec 32) :
    d.extractLsb' 24 8 ++ d.extractLsb' 16 8 ++ d.extractLsb' 8 8 ++ d.extractLsb' 0 8 = d := by
  refine BitVec.eq_of_toNat_eq ?_
  simp only [toNat_dword, BitVec.extractLsb'_toNat, Nat.shiftRight_eq_div_pow]
  omega

/-- The bytes of a displacement that was put together of four. -/
theorem disp32Bytes_append (d0 d1 d2 d3 : Byte) : disp32Bytes (d3 ++ d2 ++ d1 ++ d0) = [d0, d1, d2, d3] := by
  have h (i : Nat) : ((d3 ++ d2 ++ d1 ++ d0 : BitVec 32).extractLsb' i 8).toNat =
      (d0.toNat + 256 * d1.toNat + 65536 * d2.toNat + 16777216 * d3.toNat) / 2 ^ i % 2 ^ 8 := by
    rw [BitVec.extractLsb'_toNat, toNat_dword, Nat.shiftRight_eq_div_pow]
  simp only [disp32Bytes, List.cons.injEq, ← BitVec.toNat_inj, h, and_true]
  omega

end Sys2Proof
end

section
/-! SUPPORT. The decoder as a relation between bytes and fields (30_encoding.md R50, R60, R71): the fields a form's bytes
split into, and exactly which bytes are admitted. -/

namespace Sys2Proof

/-! ### The bytes of a set of fields (R50) -/

/-- A SIB byte is present where the ModRM byte asks for one, and the displacement has the size that ModRM and SIB ask
for (R50, R60). -/
def Fields.Shaped (f : Fields) : Prop :=
  f.sib.isSome = hasSib f.modrm ∧ f.disp.size = dispSize f.modrm (f.sib.getD 0#8)

/-- The bytes from the SIB byte on. -/
def Fields.tail (f : Fields) : List Byte := f.sib.toList ++ (f.disp.encode ++ [f.imm8])

/-- The bytes of an instruction with these fields and the opcode byte of a mnemonic (R50). -/
def Fields.bytes (op : CmpOp) (f : Fields) : List Byte :=
  0x62#8 :: f.p0 :: f.p1 :: f.p2 :: op.opcode :: f.modrm :: f.tail

@[simp] theorem Disp.length_encode (d : Disp) : d.encode.length = d.size := by cases d <;> rfl

/-- `takeSib` splits off the SIB byte that the ModRM byte asks for. -/
theorem takeSib_eq_some_iff {modrm : Byte} {bs rest : List Byte} {sib : Option Byte} :
    takeSib modrm bs = some (sib, rest) ↔ sib.isSome = hasSib modrm ∧ bs = sib.toList ++ rest := by
  constructor
  · intro h
    rcases takeSib_eq_some h with ⟨hs, x, rfl, rfl⟩ | ⟨hs, rfl, rfl⟩
    · exact ⟨hs.symm, rfl⟩
    · exact ⟨hs.symm, rfl⟩
  · rintro ⟨hs, rfl⟩
    cases sib with
    | none => simp [takeSib, ← hs]
    | some x => simp [takeSib, ← hs]

/-- `takeDisp` splits off a displacement of the size it is asked for. -/
theorem takeDisp_eq_some_iff {n : Nat} {bs rest : List Byte} {d : Disp} :
    takeDisp n bs = some (d, rest) ↔ d.size = n ∧ bs = d.encode ++ rest := by
  constructor
  · intro h
    rcases takeDisp_eq_some h with ⟨rfl, rfl, rfl⟩ | ⟨rfl, x, rfl, rfl⟩ | ⟨rfl, d0, d1, d2, d3, rfl, rfl⟩
    · exact ⟨rfl, rfl⟩
    · exact ⟨rfl, rfl⟩
    · exact ⟨rfl, by rw [Disp.encode, disp32Bytes_append]; rfl⟩
  · rintro ⟨rfl, rfl⟩
    cases d with
    | none => rfl
    | disp8 d => rfl
    | disp32 d =>
      have h : takeDisp 4 (disp32Bytes d ++ rest) = some (.disp32 (d.extractLsb' 24 8 ++ d.extractLsb' 16 8 ++
        d.extractLsb' 8 8 ++ d.extractLsb' 0 8), rest) := rfl
      rw [append_disp32Bytes] at h
      exact h

/-- Splitting gives fields of the right shape, and every list that begins with their bytes (R50). -/
theorem splitFields_eq_some_iff {p0 p1 p2 : Byte} {bs rest : List Byte} {f : Fields} :
    splitFields p0 p1 p2 bs = some (f, rest) ↔
      f.Shaped ∧ f.p0 = p0 ∧ f.p1 = p1 ∧ f.p2 = p2 ∧ bs = f.modrm :: f.tail ++ rest := by
  constructor
  · intro h
    obtain ⟨bs', bs'', rfl, hs, hd, h0, h1, h2⟩ := splitFields_eq_some h
    obtain ⟨hsib, rfl⟩ := takeSib_eq_some_iff.1 hs
    obtain ⟨hdisp, rfl⟩ := takeDisp_eq_some_iff.1 hd
    exact ⟨⟨hsib, hdisp⟩, h0, h1, h2, by simp [Fields.tail]⟩
  · rintro ⟨⟨hsib, hdisp⟩, rfl, rfl, rfl, rfl⟩
    have hs : takeSib f.modrm (f.tail ++ rest) = some (f.sib, f.disp.encode ++ f.imm8 :: rest) :=
      takeSib_eq_some_iff.2 ⟨hsib, by simp [Fields.tail]⟩
    have hd : takeDisp (dispSize f.modrm (f.sib.getD 0#8)) (f.disp.encode ++ f.imm8 :: rest)
        = some (f.disp, f.imm8 :: rest) := takeDisp_eq_some_iff.2 ⟨hdisp, rfl⟩
    simp only [List.cons_append, splitFields, hs, hd]

/-! ### The decoder on the bytes of fields (R65, R71) -/

/-- On the bytes of fields of the right shape, with a form's fixed fields, the decoder answers as the admission checks
do. -/
theorem decode_bytes {op : CmpOp} {vl : VecLen} {f : Fields} (hfix : FixedFields vl f.p0 f.p1 f.p2) (hf : f.Shaped)
    (reserved : ReservedImm8) (rest : List Byte) :
    decode reserved (f.bytes op ++ rest)
      = (f.refusal reserved).elim (.ok (Instr.of op vl f.operands, rest)) .error := by
  have hrow : selectRow (leadWord 0x62#8 f.p0 f.p1 f.p2 op.opcode) = some ⟨op, vl, matchWord op vl⟩ :=
    selectRow_leadWord_iff.2 ⟨rfl, rfl, hfix, rfl⟩
  have hsplit : splitFields f.p0 f.p1 f.p2 (f.modrm :: (f.tail ++ rest)) = some (f, rest) :=
    splitFields_eq_some_iff.2 ⟨hf, rfl, rfl, rfl, rfl⟩
  simp only [Fields.bytes, List.cons_append, decode, hrow, hsplit]
  cases f.refusal reserved <;> rfl

/-- The fields of an admitted instruction with this vector length: a form's fixed fields, the shape that ModRM and SIB ask
for, and no check refuses (R65, R50, R71). -/
structure Fields.Admitted (reserved : ReservedImm8) (vl : VecLen) (f : Fields) : Prop where
  fixed : FixedFields vl f.p0 f.p1 f.p2
  shaped : f.Shaped
  passes : f.refusal reserved = none

/-- The bytes that decode are those of admitted fields. -/
theorem decode_eq_ok_iff {reserved : ReservedImm8} {bs rest : List Byte} {i : Instr} :
    decode reserved bs = .ok (i, rest) ↔
      ∃ (op : CmpOp) (vl : VecLen) (f : Fields), f.Admitted reserved vl ∧ i = Instr.of op vl f.operands ∧
        bs = f.bytes op ++ rest := by
  constructor
  · intro h
    obtain ⟨b0, p0, p1, p2, opc, bs', ⟨op, vl, value⟩, f, rfl, hrow, hsplit, hr, rfl⟩ := decode_eq_ok h
    obtain ⟨-, rfl, hfix, rfl⟩ := selectRow_leadWord_iff.1 hrow
    obtain ⟨hf, rfl, rfl, rfl, rfl⟩ := splitFields_eq_some_iff.1 hsplit
    exact ⟨op, vl, f, ⟨hfix, hf, hr⟩, rfl, rfl⟩
  · rintro ⟨op, vl, f, hf, rfl, rfl⟩
    rw [decode_bytes hf.fixed hf.shaped, hf.passes]
    rfl

/-- Five bytes that are not 62h, payload bytes with some form's fixed fields and that form's opcode byte are refused as not
in scope, whatever follows (R65, R71). -/
theorem decode_eq_notInScope {b0 p0 p1 p2 opc : Byte}
    (h : ∀ op vl, b0 = 0x62#8 → FixedFields vl p0 p1 p2 → opc ≠ CmpOp.opcode op) (reserved : ReservedImm8)
    (bs : List Byte) : decode reserved (b0 :: p0 :: p1 :: p2 :: opc :: bs) = .error .notInScope := by
  cases hrow : selectRow (leadWord b0 p0 p1 p2 opc) with
  | none => simp only [decode, hrow]
  | some row =>
    obtain ⟨-, hb0, hfix, hopc⟩ := selectRow_leadWord_iff.1 hrow
    exact absurd hopc (h row.op row.vl hb0 hfix)

/-- What is not admitted is refused. -/
theorem exists_error_of_not_ok {reserved : ReservedImm8} {bs : List Byte}
    (h : ∀ i rest, decode reserved bs ≠ .ok (i, rest)) : ∃ why, decode reserved bs = .error why := by
  cases hd : decode reserved bs with
  | error why => exact ⟨why, rfl⟩
  | ok r => exact absurd hd (h r.1 r.2)

/-- Of admitted bytes the first four are 62h and the payload, and more follow: the opcode byte, ModRM and its tail
(R50). -/
theorem decode_cons_eq_ok {reserved : ReservedImm8} {b0 p0 p1 p2 : Byte} {bs rest : List Byte} {i : Instr}
    (h : decode reserved (b0 :: p0 :: p1 :: p2 :: bs) = .ok (i, rest)) :
    ∃ (op : CmpOp) (vl : VecLen) (f : Fields), f.Admitted reserved vl ∧ i = Instr.of op vl f.operands ∧
      f.p0 = p0 ∧ f.p1 = p1 ∧ f.p2 = p2 ∧ bs = op.opcode :: f.modrm :: (f.tail ++ rest) := by
  obtain ⟨op, vl, f, hf, hi, hbs⟩ := decode_eq_ok_iff.1 h
  simp only [Fields.bytes, List.cons_append, List.cons.injEq] at hbs
  obtain ⟨-, rfl, rfl, rfl, hbs⟩ := hbs
  exact ⟨op, vl, f, hf, hi, rfl, rfl, rfl, hbs⟩

/-- Of admitted bytes the sixth is ModRM, with the tail of the fields after it (R50). -/
theorem decode_cons_modrm_eq_ok {reserved : ReservedImm8} {b0 p0 p1 p2 opc modrm : Byte} {bs rest : List Byte}
    {i : Instr} (h : decode reserved (b0 :: p0 :: p1 :: p2 :: opc :: modrm :: bs) = .ok (i, rest)) :
    ∃ (op : CmpOp) (vl : VecLen) (f : Fields), f.Admitted reserved vl ∧ i = Instr.of op vl f.operands ∧
      f.p0 = p0 ∧ f.p2 = p2 ∧ f.modrm = modrm ∧ bs = f.tail ++ rest := by
  obtain ⟨op, vl, f, hf, hi, h0, -, h2, hbs⟩ := decode_cons_eq_ok h
  simp only [List.cons.injEq] at hbs
  obtain ⟨-, hm, hbs⟩ := hbs
  exact ⟨op, vl, f, hf, hi, h0, h2, hm.symm, hbs⟩

end Sys2Proof
end

section
/-! SUPPORT. Second source and fields (30_encoding.md R54, R56, R58, R60): the fields that the parts of a second source
fill, and the second source that fields name. -/

namespace Sys2Proof

/-! ### The SIB byte and the displacement of a second source -/

/-- The SIB byte of an address form (R58). -/
def AddrMode.sibField : AddrMode → Option Byte
  | .pcRel _ => none
  | .base _ _ => none
  | .sib b index scale _ => some (sibByte scale index ((gregBits b).extractLsb' 0 3))
  | .sibNoBase index scale _ => some (sibByte scale index 0b101#3)

/-- The displacement of an address form (R60). -/
def AddrMode.dispField : AddrMode → Disp
  | .pcRel d => .disp32 d
  | .base _ d => d
  | .sib _ _ _ d => d
  | .sibNoBase _ _ d => .disp32 d

/-- The SIB byte of a second source. -/
def Src2.sibField : Src2 → Option Byte
  | .reg _ => none
  | .mem a => a.sibField
  | .bcst a => a.sibField

/-- The displacement of a second source. -/
def Src2.dispField : Src2 → Disp
  | .reg _ => .none
  | .mem a => a.dispField
  | .bcst a => a.dispField

theorem AddrMode.tail_parts (c : BitVec 1) (a : AddrMode) :
    (a.parts c).tail = a.sibField.toList ++ a.dispField.encode := by cases a <;> rfl

/-- What a second source puts after ModRM is its SIB byte and its displacement (R50). -/
theorem Src2.tail_parts (s : Src2) : s.parts.tail = s.sibField.toList ++ s.dispField.encode := by
  cases s with
  | reg n => rfl
  | mem a => exact a.tail_parts _
  | bcst a => exact a.tail_parts _

theorem AddrMode.size_eq (a : AddrMode) : a.size = a.sibField.toList.length + a.dispField.size := by
  cases a <;> simp [AddrMode.size, AddrMode.sibField, AddrMode.dispField, Disp.size]

/-- The size of a second source is that of its SIB byte and its displacement (R64). -/
theorem Src2.size_eq (s : Src2) : s.size = s.sibField.toList.length + s.dispField.size := by
  cases s with
  | reg n => rfl
  | mem a => exact a.size_eq
  | bcst a => exact a.size_eq

/-- The fields hold these parts, this SIB byte and this displacement. -/
structure Fields.Carries (f : Fields) (r : RmParts) (sib : Option Byte) (disp : Disp) : Prop where
  xBar : f.xBar = r.xBar
  bBar : f.bBar = r.bBar
  bcst : f.p2.extractLsb' 4 1 = r.bcst
  mod : modOf f.modrm = r.mod
  rm : rmOf f.modrm = r.rm
  sib : f.sib = sib
  disp : f.disp = disp

theorem AddrMode.bcst_parts (c : BitVec 1) (a : AddrMode) : (a.parts c).bcst = c := by cases a <;> rfl

/-! ### The checks on a memory operand -/

/-- `EVEX.b` as the bit of its field. -/
theorem Fields.bcst_eq (f : Fields) : f.bcst = (f.p2.extractLsb' 4 1).getLsbD 0 := by
  simp [Fields.bcst]

/-- The field of `EVEX.b` as a bit. -/
theorem extractLsb'_bcst (f : Fields) : f.p2.extractLsb' 4 1 = BitVec.ofBool f.bcst := by
  unfold Fields.bcst
  generalize f.p2 = p2
  revert p2
  decide

/-- A memory operand passes the check of unused stored bits exactly when those it does not use are 1 (R58). -/
theorem unusedBitClear_eq_false_iff {f : Fields} (hr : f.isReg = false) :
    f.unusedBitClear = false ↔ (hasSib f.modrm = false → f.xBar = 1#1) ∧ (f.baseless = true → f.bBar = 1#1) := by
  have hbit (x : BitVec 1) : x = 0#1 ↔ ¬ x = 1#1 := by revert x; decide
  unfold Fields.unusedBitClear
  cases hasSib f.modrm <;> cases f.baseless <;> simp [hr, hbit]

/-- Without a base register the displacement has 4 bytes (R60). -/
theorem dispSize_of_isBaseless {modrm sib : Byte} (h : isBaseless modrm sib = true) : dispSize modrm sib = 4 := by
  have hm : modOf modrm = 0b00#2 := by
    simp only [isBaseless, Bool.and_eq_true, beq_iff_eq] at h
    exact h.1
  simp [dispSize, hm, h]

/-- A displacement of no bytes is none. -/
theorem eq_none_of_size {d : Disp} (h : d.size = 0) : d = .none := by
  cases d with
  | none => rfl
  | disp8 d => cases h
  | disp32 d => cases h

/-- A displacement of one byte is a `disp8`. -/
theorem eq_disp8_of_size {d : Disp} (h : d.size = 1) : ∃ d8, d = .disp8 d8 := by
  cases d with
  | none => cases h
  | disp8 d => exact ⟨d, rfl⟩
  | disp32 d => cases h

/-- A displacement of four bytes is a `disp32`. -/
theorem eq_disp32_of_size {d : Disp} (h : d.size = 4) : ∃ d32, d = .disp32 d32 := by
  cases d with
  | none => cases h
  | disp8 d => cases h
  | disp32 d => exact ⟨d, rfl⟩

/-- With a base register the displacement is as ModRM.mod says (R60). -/
theorem mod_eq_of_size {modrm sib : Byte} {d : Disp} (hm : modOf modrm ≠ 0b11#2) (hb : isBaseless modrm sib = false)
    (h : d.size = dispSize modrm sib) : modOf modrm = d.mod := by
  have hcases : modOf modrm = 0b00#2 ∨ modOf modrm = 0b01#2 ∨ modOf modrm = 0b10#2 := by
    generalize modOf modrm = m at hm
    revert m
    decide
  rcases hcases with h0 | h1 | h2
  · rw [h0, eq_none_of_size (h.trans (by simp [dispSize, h0, hb])), Disp.mod]
  · obtain ⟨d8, rfl⟩ := eq_disp8_of_size (h.trans (by simp [dispSize, h1]))
    exact h1
  · obtain ⟨d32, rfl⟩ := eq_disp32_of_size (h.trans (by simp [dispSize, h2]))
    exact h2

/-- Of a form with base register the displacement has the size that its ModRM.mod asks for (R60). -/
theorem size_eq_of_mod {modrm sib : Byte} {d : Disp} (hm : modOf modrm = d.mod) (hb : isBaseless modrm sib = false) :
    d.size = dispSize modrm sib := by
  cases d <;> simp [dispSize, hm, hb, Disp.mod, Disp.size]

/-! ### From a second source to its fields and back -/

theorem Disp.mod_ne (d : Disp) : d.mod ≠ 0b11#2 := by cases d <;> simp [Disp.mod]

/-- A base register that may stand with its displacement does not ask for a disp32 without a base (R58, R60). -/
theorem not_mod_zero_and_low_five {b : GReg} {d : Disp} (h : bareBaseWf b d = true) :
    ¬ (d.mod = 0b00#2 ∧ (gregBits b).extractLsb' 0 3 = 0b101#3) := by
  rintro ⟨hmod, hlow⟩
  cases d with
  | none =>
    have h5 := congrArg BitVec.toNat hlow
    rw [toNat_gregBits_low] at h5
    exact of_decide_eq_true h h5
  | disp8 d => cases hmod
  | disp32 d => cases hmod

/-- A base register that may stand without a SIB byte does not ask for one (R50, R58). -/
theorem low_ne_four {b : GReg} (h : plainBaseWf b = true) : (gregBits b).extractLsb' 0 3 ≠ 0b100#3 := by
  intro hlow
  have h4 := congrArg BitVec.toNat hlow
  rw [toNat_gregBits_low] at h4
  exact of_decide_eq_true h h4

/-- The fields that carry a well-formed address form have the shape that ModRM and SIB ask for, no unused bit is 0, and
they name that form (R58, R60). -/
theorem Fields.Carries.address {f : Fields} {a : AddrMode} {c : BitVec 1}
    (h : f.Carries (a.parts c) a.sibField a.dispField) (ha : a.wf = true) :
    f.isReg = false ∧ f.Shaped ∧ f.unusedBitClear = false ∧ f.addrMode = a := by
  obtain ⟨hx, hb, -, hm, hr, hs, hd⟩ := h
  cases a with
  | pcRel d =>
    simp only [AddrMode.parts, AddrMode.sibField, AddrMode.dispField] at hx hb hm hr hs hd
    have hreg : f.isReg = false := by simp [Fields.isReg, hm]
    have hsib : hasSib f.modrm = false := by simp [hasSib, hr]
    have hbase : f.baseless = true := by simp [Fields.baseless, isBaseless, hm, hr]
    refine ⟨hreg, ⟨by rw [hs, hsib]; rfl, by rw [hd]; exact (dispSize_of_isBaseless hbase).symm⟩, ?_, ?_⟩
    · exact (unusedBitClear_eq_false_iff hreg).2 ⟨fun _ => hx, fun _ => hb⟩
    · simp [Fields.addrMode, hs, hbase, hd]
  | base b d =>
    simp only [AddrMode.parts, AddrMode.sibField, AddrMode.dispField] at hx hb hm hr hs hd
    rw [AddrMode.wf, Bool.and_eq_true] at ha
    have h4 := low_ne_four ha.1
    have h5 := not_mod_zero_and_low_five ha.2
    have hreg : f.isReg = false := by simp [Fields.isReg, hm, d.mod_ne]
    have hsib : hasSib f.modrm = false := by simp [hasSib, hr, h4]
    have hbase : f.baseless = false := by simpa [Fields.baseless, isBaseless, hm, hr, h4] using h5
    refine ⟨hreg, ⟨by rw [hs, hsib]; rfl, by rw [hd]; exact size_eq_of_mod hm hbase⟩, ?_, ?_⟩
    · exact (unusedBitClear_eq_false_iff hreg).2 ⟨fun _ => hx, fun h => by simp [hbase] at h⟩
    · simp [Fields.addrMode, hs, hbase, hd, hb, hr, gregOf_gregBits]
  | sib b index scale d =>
    simp only [AddrMode.parts, AddrMode.sibField, AddrMode.dispField] at hx hb hm hr hs hd
    rw [AddrMode.wf, Bool.and_eq_true] at ha
    have h5 := not_mod_zero_and_low_five ha.2
    obtain ⟨hscale, hindex, hrm⟩ := sibByte_fields scale index ((gregBits b).extractLsb' 0 3)
    have hreg : f.isReg = false := by simp [Fields.isReg, hm, d.mod_ne]
    have hsib : hasSib f.modrm = true := by simp [hasSib, hm, hr, d.mod_ne]
    have hbase : f.baseless = false := by simpa [Fields.baseless, isBaseless, hm, hr, hs, hrm] using h5
    refine ⟨hreg, ⟨by rw [hs, hsib]; rfl, by rw [hd]; exact size_eq_of_mod hm hbase⟩, ?_, ?_⟩
    · exact (unusedBitClear_eq_false_iff hreg).2 ⟨fun h => by simp [hsib] at h, fun h => by simp [hbase] at h⟩
    · simp [Fields.addrMode, hs, hbase, hd, hb, hscale, hindex, hrm, hx, indexOf_indexBits ha.1, gregOf_gregBits]
  | sibNoBase index scale d =>
    simp only [AddrMode.parts, AddrMode.sibField, AddrMode.dispField] at hx hb hm hr hs hd
    obtain ⟨hscale, hindex, hrm⟩ := sibByte_fields scale index 0b101#3
    have hreg : f.isReg = false := by simp [Fields.isReg, hm]
    have hsib : hasSib f.modrm = true := by simp [hasSib, hm, hr]
    have hbase : f.baseless = true := by simp [Fields.baseless, isBaseless, hm, hr, hs, hrm]
    refine ⟨hreg, ⟨by rw [hs, hsib]; rfl, by rw [hd]; exact (dispSize_of_isBaseless hbase).symm⟩, ?_, ?_⟩
    · exact (unusedBitClear_eq_false_iff hreg).2 ⟨fun h => by simp [hsib] at h, fun _ => hb⟩
    · simp [Fields.addrMode, hs, hbase, hd, hscale, hindex, hx, indexOf_indexBits ha]

/-- The fields that carry a well-formed second source have the shape that ModRM and SIB ask for, pass the checks on ModRM
and the extension bits, and name that second source (R56, R58, R59). -/
theorem Fields.Carries.src2 {f : Fields} {s : Src2} (h : f.Carries s.parts s.sibField s.dispField) (hs : s.wf = true) :
    f.Shaped ∧ (f.bcst && f.isReg) = false ∧ f.unusedBitClear = false ∧ f.src2 = s := by
  have hbit : f.bcst = s.parts.bcst.getLsbD 0 := by rw [f.bcst_eq, h.bcst]
  cases s with
  | reg n =>
    obtain ⟨hx, hb, -, hm, hr, hsib, hd⟩ := h
    simp only [Src2.parts, Src2.sibField, Src2.dispField] at hx hb hm hr hsib hd
    have hreg : f.isReg = true := by simp [Fields.isReg, hm]
    have hbc : f.bcst = false := hbit.trans (by simp [Src2.parts])
    refine ⟨⟨by simp [hsib, hasSib, hm], by simp [hd, Disp.size, dispSize, isBaseless, hm]⟩, by simp [hbc],
      by simp [Fields.unusedBitClear, hreg], ?_⟩
    rw [Fields.src2, if_pos hreg, hx, hb, hr, BitVec.not_not, BitVec.not_not, vregBits_parts]
    rfl
  | mem a =>
    obtain ⟨hreg, hshape, hu, ha⟩ := h.address hs
    have hbc : f.bcst = false := hbit.trans (by rw [Src2.parts, AddrMode.bcst_parts]; rfl)
    exact ⟨hshape, by simp [hreg], hu, by simp [Fields.src2, hreg, hbc, ha]⟩
  | bcst a =>
    obtain ⟨hreg, hshape, hu, ha⟩ := h.address hs
    have hbc : f.bcst = true := hbit.trans (by rw [Src2.parts, AddrMode.bcst_parts]; rfl)
    exact ⟨hshape, by simp [hreg], hu, by simp [Fields.src2, hreg, hbc, ha]⟩

/-- The four index bits of a SIB byte and its X bit give both back (R58). -/
theorem sibByte_indexOf (x : BitVec 1) (b : Byte) :
    sibByte (b.extractLsb' 6 2) (indexOf x (b.extractLsb' 3 3)) (rmOf b) = b := by
  rw [sibByte, indexBits_indexOf, BitVec.extractLsb'_append_eq_right]
  exact modOf_append_regOf_append_rmOf b

/-- The address forms of R58 as fields spell them: by the SIB byte's presence, and by whether there is a base register. -/
inductive Fields.Spells (f : Fields) : AddrMode → Prop where
  | pcRel (d : BitVec 32) (sib : f.sib = none) (rm : rmOf f.modrm ≠ 0b100#3) (baseless : f.baseless = true)
    (mod : modOf f.modrm = 0b00#2) (low : rmOf f.modrm = 0b101#3) (disp : f.disp = .disp32 d) : f.Spells (.pcRel d)
  | base (sib : f.sib = none) (rm : rmOf f.modrm ≠ 0b100#3) (mod : modOf f.modrm = f.disp.mod)
    (low : ¬ (modOf f.modrm = 0b00#2 ∧ rmOf f.modrm = 0b101#3)) :
    f.Spells (.base (gregOf (~~~ f.bBar) (rmOf f.modrm)) f.disp)
  | sib (x : Byte) (sib : f.sib = some x) (rm : rmOf f.modrm = 0b100#3) (mod : modOf f.modrm = f.disp.mod)
    (low : ¬ (modOf f.modrm = 0b00#2 ∧ rmOf x = 0b101#3)) :
    f.Spells (.sib (gregOf (~~~ f.bBar) (rmOf x)) (indexOf (~~~ f.xBar) (x.extractLsb' 3 3)) (x.extractLsb' 6 2) f.disp)
  | sibNoBase (x : Byte) (d : BitVec 32) (sib : f.sib = some x) (rm : rmOf f.modrm = 0b100#3)
    (baseless : f.baseless = true) (mod : modOf f.modrm = 0b00#2) (low : rmOf x = 0b101#3)
    (disp : f.disp = .disp32 d) :
    f.Spells (.sibNoBase (indexOf (~~~ f.xBar) (x.extractLsb' 3 3)) (x.extractLsb' 6 2) d)

/-- Fields of the right shape with a memory operand spell the address form that they name. -/
theorem Fields.Shaped.spells {f : Fields} (hf : f.Shaped) (hreg : f.isReg = false) : f.Spells f.addrMode := by
  obtain ⟨hsib, hdisp⟩ := hf
  have hm : modOf f.modrm ≠ 0b11#2 := by simpa [Fields.isReg] using hreg
  cases hs : f.sib with
  | none =>
    have h4 : rmOf f.modrm ≠ 0b100#3 := by simpa [hasSib, hm, hs] using hsib
    cases hbase : f.baseless with
    | true =>
      obtain ⟨d, hd⟩ := eq_disp32_of_size (hdisp.trans (dispSize_of_isBaseless hbase))
      have ha : f.addrMode = .pcRel d := by simp [Fields.addrMode, hs, hbase, hd]
      obtain ⟨h0, h5⟩ : modOf f.modrm = 0b00#2 ∧ rmOf f.modrm = 0b101#3 := by
        simpa [Fields.baseless, isBaseless, h4] using hbase
      exact ha ▸ .pcRel d hs h4 hbase h0 h5 hd
    | false =>
      have ha : f.addrMode = .base (gregOf (~~~ f.bBar) (rmOf f.modrm)) f.disp := by simp [Fields.addrMode, hs, hbase]
      exact ha ▸ .base hs h4 (mod_eq_of_size hm hbase hdisp) (by simpa [Fields.baseless, isBaseless, h4] using hbase)
  | some x =>
    have h4 : rmOf f.modrm = 0b100#3 := by simpa [hasSib, hm, hs] using hsib.symm
    cases hbase : f.baseless with
    | true =>
      obtain ⟨d, hd⟩ := eq_disp32_of_size (hdisp.trans (dispSize_of_isBaseless hbase))
      have ha : f.addrMode = .sibNoBase (indexOf (~~~ f.xBar) (x.extractLsb' 3 3)) (x.extractLsb' 6 2) d := by
        simp [Fields.addrMode, hs, hbase, hd]
      obtain ⟨h0, h5⟩ : modOf f.modrm = 0b00#2 ∧ rmOf x = 0b101#3 := by
        simpa [Fields.baseless, isBaseless, h4, hs] using hbase
      exact ha ▸ .sibNoBase x d hs h4 hbase h0 h5 hd
    | false =>
      have ha : f.addrMode = .sib (gregOf (~~~ f.bBar) (rmOf x)) (indexOf (~~~ f.xBar) (x.extractLsb' 3 3))
          (x.extractLsb' 6 2) f.disp := by simp [Fields.addrMode, hs, hbase]
      exact ha ▸ .sib x hs h4 (mod_eq_of_size hm hbase hdisp)
        (by simpa [Fields.baseless, isBaseless, h4, hs] using hbase)

/-- Where no unused bit is 0, fields carry the address form that they spell (R58, R60). -/
theorem Fields.Spells.carries {f : Fields} {a : AddrMode} (h : f.Spells a) (hreg : f.isReg = false)
    (hu : f.unusedBitClear = false) : f.Carries (a.parts (BitVec.ofBool f.bcst)) a.sibField a.dispField := by
  obtain ⟨hx, hb⟩ := (unusedBitClear_eq_false_iff hreg).1 hu
  have hbit := extractLsb'_bcst f
  have hindex (x : Byte) : f.xBar = ~~~ (indexBits (indexOf (~~~ f.xBar) (x.extractLsb' 3 3))).extractLsb' 3 1 := by
    rw [indexBits_indexOf, BitVec.extractLsb'_append_eq_left, BitVec.not_not]
  have hbase (low : BitVec 3) : f.bBar = ~~~ (gregBits (gregOf (~~~ f.bBar) low)).extractLsb' 3 1 := by
    rw [(gregBits_gregOf _ low).1, BitVec.not_not]
  have hnosib (h4 : rmOf f.modrm ≠ 0b100#3) : hasSib f.modrm = false := by simp [hasSib, h4]
  have hbyte (x : Byte) : x = sibByte (x.extractLsb' 6 2) (indexOf (~~~ f.xBar) (x.extractLsb' 3 3)) (rmOf x) :=
    (sibByte_indexOf (~~~ f.xBar) x).symm
  cases h with
  | pcRel d hs h4 hbl h0 h5 hd => exact ⟨hx (hnosib h4), hb hbl, hbit, h0, h5, hs, hd⟩
  | base hs h4 hmod _ => exact ⟨hx (hnosib h4), hbase _, hbit, hmod, (gregBits_gregOf _ _).2.symm, hs, rfl⟩
  | sib x hs h4 hmod _ =>
    refine ⟨hindex x, hbase _, hbit, hmod, h4, hs.trans (congrArg some ?_), rfl⟩
    rw [(gregBits_gregOf _ _).2]
    exact hbyte x
  | sibNoBase x d hs h4 hbl h0 h5 hd =>
    refine ⟨hindex x, hb hbl, hbit, h0, h4, hs.trans (congrArg some ?_), hd⟩
    rw [← h5]
    exact hbyte x

/-- Fields of the right shape that pass the checks on ModRM and the extension bits carry the second source that they name
(R56, R58, R59). -/
theorem Fields.carries_src2 {f : Fields} (hf : f.Shaped) (hb : (f.bcst && f.isReg) = false)
    (hu : f.unusedBitClear = false) : f.Carries f.src2.parts f.src2.sibField f.src2.dispField := by
  cases hreg : f.isReg with
  | true =>
    have hbc : f.bcst = false := by simpa [hreg] using hb
    have hm : modOf f.modrm = 0b11#2 := by simpa [Fields.isReg] using hreg
    have hs : f.src2 = .reg (~~~ f.xBar ++ ~~~ f.bBar ++ rmOf f.modrm).toFin := by simp [Fields.src2, hreg]
    obtain ⟨hx, hb, hr⟩ := vregBits_toFin (~~~ f.xBar) (~~~ f.bBar) (rmOf f.modrm)
    obtain ⟨hsib, hdisp⟩ := hf
    rw [hs]
    exact ⟨by simp [Src2.parts, hx], by simp [Src2.parts, hb], by rw [extractLsb'_bcst, hbc]; rfl, hm, hr.symm,
      by simpa [Src2.sibField, hasSib, hm] using hsib, eq_none_of_size (by simpa [dispSize, isBaseless, hm] using hdisp)⟩
  | false =>
    have ha := (hf.spells hreg).carries hreg hu
    cases hbc : f.bcst with
    | true =>
      rw [hbc] at ha
      rw [show f.src2 = .bcst f.addrMode by simp [Fields.src2, hreg, hbc]]
      exact ha
    | false =>
      rw [hbc] at ha
      rw [show f.src2 = .mem f.addrMode by simp [Fields.src2, hreg, hbc]]
      exact ha

end Sys2Proof
end

section
/-! SUPPORT. The round trips between instructions and bytes (30_encoding.md R50 to R71). -/

namespace Sys2Proof

/-! ### An instruction and its parts -/

/-- Every instruction is rebuilt from its parts, and its well-formedness is its operands'. -/
theorem Instr.formParts : ∀ i : Instr, Laws.FormParts.Statement i
  | .vpcmpud128 o => Laws.FormParts.vpcmpud128 o
  | .vpcmpud256 o => Laws.FormParts.vpcmpud256 o
  | .vpcmpud512 o => Laws.FormParts.vpcmpud512 o
  | .vpcmpd128 o => Laws.FormParts.vpcmpd128 o
  | .vpcmpd256 o => Laws.FormParts.vpcmpd256 o
  | .vpcmpd512 o => Laws.FormParts.vpcmpd512 o

/-! ### The fields of an instruction -/

/-- The fields that an instruction's operands fill, with any imm8 byte (R50). -/
def OpEnA.fields (vl : VecLen) (o : OpEnA) (imm8 : Byte) : Fields where
  p0 := encodeP0 o.src2.parts
  p1 := encodeP1 o.src1
  p2 := encodeP2 vl o.src2.parts o.src1 o.mask
  modrm := encodeModRM o.src2.parts o.dest
  sib := o.src2.sibField
  disp := o.src2.dispField
  imm8 := imm8

/-- The encoder writes the bytes of an instruction's fields. -/
theorem encode_eq (i : Instr) :
    encode i = (i.operands.fields i.vl (encodeImm8 i.operands.pred)).bytes i.op := by
  simp [encode, Fields.bytes, Fields.tail, OpEnA.fields, Src2.tail_parts]

/-- The imm8 byte is the last one (R50). -/
theorem Fields.dropLast_bytes_append (op : CmpOp) (f : Fields) (imm8 : Byte) (rest : List Byte) :
    (f.bytes op).dropLast ++ imm8 :: rest = ({ f with imm8 := imm8 } : Fields).bytes op ++ rest := by
  have h (b : Byte) : ({ f with imm8 := b } : Fields).bytes op
      = 0x62#8 :: f.p0 :: f.p1 :: f.p2 :: op.opcode :: f.modrm :: (f.sib.toList ++ f.disp.encode) ++ [b] := by
    simp [Fields.bytes, Fields.tail]
  have hf : f.bytes op = _ := h f.imm8
  rw [hf, List.dropLast_concat, h, List.append_assoc]
  rfl

/-- An instruction's bytes without the last one, and an imm8 after them. -/
theorem dropLast_encode_append (i : Instr) (imm8 : Byte) (rest : List Byte) :
    (encode i).dropLast ++ imm8 :: rest = (i.operands.fields i.vl imm8).bytes i.op ++ rest := by
  rw [encode_eq, Fields.dropLast_bytes_append]
  rfl

/-- The encoder writes a form's fixed fields (R51). -/
theorem OpEnA.fields_fixed (vl : VecLen) (o : OpEnA) (imm8 : Byte) :
    FixedFields vl (o.fields vl imm8).p0 (o.fields vl imm8).p1 (o.fields vl imm8).p2 := by
  obtain ⟨-, -, -, -, h0⟩ := encodeP0_fields o.src2.parts
  obtain ⟨-, h1⟩ := encodeP1_fields o.src1
  obtain ⟨-, -, -, -, h2⟩ := encodeP2_fields vl o.src2.parts o.src1 o.mask
  exact ⟨h0, h1, h2⟩

/-- The fields of an instruction carry its second source. -/
theorem OpEnA.fields_carries (vl : VecLen) (o : OpEnA) (imm8 : Byte) :
    (o.fields vl imm8).Carries o.src2.parts o.src2.sibField o.src2.dispField := by
  obtain ⟨hx, hb, -, -, -⟩ := encodeP0_fields o.src2.parts
  obtain ⟨hbc, -, -, -, -⟩ := encodeP2_fields vl o.src2.parts o.src1 o.mask
  obtain ⟨hm, -, hr⟩ := encodeModRM_fields o.src2.parts o.dest
  exact ⟨hx, hb, hbc, hm, hr, rfl, rfl⟩

/-- Of the checks on a well-formed instruction's fields only that of imm8 can refuse (R66). -/
theorem OpEnA.fields_refusal {vl : VecLen} {o : OpEnA} (ho : o.wf = true) (reserved : ReservedImm8) (imm8 : Byte) :
    (o.fields vl imm8).refusal reserved
      = if reserved == .refuse && imm8.extractLsb' 3 5 != 0#5 then some .reservedImm8 else none := by
  rw [OpEnA.wf, Bool.and_eq_true] at ho
  obtain ⟨-, hb, hu, -⟩ := (o.fields_carries vl imm8).src2 ho.2
  obtain ⟨-, -, h7, h4, -⟩ := encodeP0_fields o.src2.parts
  obtain ⟨-, -, -, hz, -⟩ := encodeP2_fields vl o.src2.parts o.src1 o.mask
  have hp0 : (o.fields vl imm8).p0 = encodeP0 o.src2.parts := rfl
  have hp2 : (o.fields vl imm8).p2 = encodeP2 vl o.src2.parts o.src1 o.mask := rfl
  have himm : (o.fields vl imm8).imm8 = imm8 := rfl
  simp only [Fields.refusal, hb, hu, hp0, hp2, himm, h7, h4, hz, Bool.and_self, Bool.not_true, Bool.false_eq_true,
    if_false]

/-- The writemask field names the writemask, unless that is k0 (R57). -/
theorem mask_of_maskBits {f : Fields} {mask : Option KReg} (h : f.p2.extractLsb' 0 3 = maskBits mask)
    (hm : maskWf mask = true) : f.mask = mask := by
  rw [Fields.mask, h]
  clear h
  revert mask
  decide

theorem Fields.maskBits_mask (f : Fields) : maskBits f.mask = f.p2.extractLsb' 0 3 := by
  unfold Fields.mask
  generalize f.p2.extractLsb' 0 3 = a
  revert a
  decide

/-- The fields V' and vvvv name the first source (R55). -/
theorem src1_of_bits {f : Fields} {n : VReg} (hv : f.p1.extractLsb' 3 4 = ~~~ (vregBits n).extractLsb' 0 4)
    (hv' : f.p2.extractLsb' 3 1 = ~~~ (vregBits n).extractLsb' 4 1) : f.src1 = n := by
  rw [Fields.src1, hv, hv', BitVec.not_not, BitVec.not_not]
  exact congrArg BitVec.toFin (BitVec.extractLsb'_append_extractLsb' (w := 1) (len := 4))

/-- The first source named by fields gives back V' and vvvv. -/
theorem Fields.bits_src1 (f : Fields) : f.p1.extractLsb' 3 4 = ~~~ (vregBits f.src1).extractLsb' 0 4 ∧
    f.p2.extractLsb' 3 1 = ~~~ (vregBits f.src1).extractLsb' 4 1 := by
  have hv : (vregBits f.src1).extractLsb' 0 4 = ~~~ (f.p1.extractLsb' 3 4) := BitVec.extractLsb'_append_eq_right
  have hv' : (vregBits f.src1).extractLsb' 4 1 = ~~~ (f.p2.extractLsb' 3 1) := BitVec.extractLsb'_append_eq_left
  rw [hv, hv', BitVec.not_not, BitVec.not_not]
  exact ⟨rfl, rfl⟩

/-- A well-formed instruction's fields name its operands, and the predicate of the imm8 byte. -/
theorem OpEnA.operands_fields {o : OpEnA} (ho : o.wf = true) (vl : VecLen) (imm8 : Byte) :
    (o.fields vl imm8).operands = { o with pred := Predicate.ofBits (imm8.extractLsb' 0 3) } := by
  rw [OpEnA.wf, Bool.and_eq_true] at ho
  obtain ⟨-, -, -, hs⟩ := (o.fields_carries vl imm8).src2 ho.2
  obtain ⟨hv, -⟩ := encodeP1_fields o.src1
  obtain ⟨-, hv', ha, -⟩ := encodeP2_fields vl o.src2.parts o.src1 o.mask
  obtain ⟨-, hd, -⟩ := encodeModRM_fields o.src2.parts o.dest
  have hdest : (regOf (o.fields vl imm8).modrm).toFin = o.dest := congrArg BitVec.toFin hd
  have hmask : (o.fields vl imm8).mask = o.mask := mask_of_maskBits ha ho.1
  have hsrc1 : (o.fields vl imm8).src1 = o.src1 := src1_of_bits hv hv'
  have himm : (o.fields vl imm8).imm8 = imm8 := rfl
  rw [Fields.operands, hdest, hmask, hsrc1, hs, himm]

/-! ### Decoding an encoding -/

/-- The bytes of a well-formed instruction with any imm8: the instruction with that byte's predicate, or the refusal of
reserved bits (R62, R66). -/
theorem decode_fields_bytes {i : Instr} (hi : i.wf = true) (reserved : ReservedImm8) (imm8 : Byte) (rest : List Byte) :
    decode reserved ((i.operands.fields i.vl imm8).bytes i.op ++ rest)
      = if reserved == .refuse && imm8.extractLsb' 3 5 != 0#5 then .error .reservedImm8
        else .ok (Instr.of i.op i.vl { i.operands with pred := Predicate.ofBits (imm8.extractLsb' 0 3) }, rest) := by
  have ho : i.operands.wf = true := i.formParts.2.symm.trans hi
  have hs : i.operands.src2.wf = true := (Bool.and_eq_true _ _ ▸ ho).2
  obtain ⟨hshape, -, -, -⟩ := (i.operands.fields_carries i.vl imm8).src2 hs
  rw [decode_bytes (i.operands.fields_fixed i.vl imm8) hshape, OpEnA.fields_refusal ho, OpEnA.operands_fields ho]
  split <;> rfl

/-- Settles O1: an encoding is the bytes of its instruction's fields, and its imm8 has no reserved bit. -/
theorem decodeEncodeRoundTrip : Obligations.DecodeEncodeRoundTrip := by
  unfold Obligations.DecodeEncodeRoundTrip
  intro reserved i rest hi
  obtain ⟨hpred, hres⟩ := encodeImm8_fields i.operands.pred
  rw [encode_eq, decode_fields_bytes hi, hpred, hres, Predicate.ofBits_toBits]
  rw [bne_self_eq_false, Bool.and_false, if_neg Bool.false_ne_true]
  exact congrArg (fun j => Except.ok (j, rest)) i.formParts.1

/-! ### Encoding what was decoded -/

/-- Fields that pass the checks are the fields of the operands that they name. -/
theorem Fields.Admitted.fields_operands {reserved : ReservedImm8} {vl : VecLen} {f : Fields}
    (hf : f.Admitted reserved vl) : f.operands.fields vl f.imm8 = f := by
  obtain ⟨-, hb, hz, h7, h4, hu⟩ := refusal_eq_none hf.passes
  obtain ⟨hfix0, hfix1, hfix2⟩ := hf.fixed
  have hc : f.Carries f.operands.src2.parts f.operands.src2.sibField f.operands.src2.dispField :=
    f.carries_src2 hf.shaped hb hu
  obtain ⟨hv, hv'⟩ := f.bits_src1
  have hp0 : encodeP0 f.operands.src2.parts = f.p0 := encodeP0_eq hc.xBar hc.bBar h7 h4 hfix0
  have hp1 : encodeP1 f.operands.src1 = f.p1 := encodeP1_eq hv hfix1
  have hp2 : encodeP2 vl f.operands.src2.parts f.operands.src1 f.operands.mask = f.p2 :=
    encodeP2_eq hc.bcst hv' f.maskBits_mask.symm hz hfix2
  have hmodrm : encodeModRM f.operands.src2.parts f.operands.dest = f.modrm := by
    rw [encodeModRM, ← hc.mod, ← hc.rm]
    exact modOf_append_regOf_append_rmOf f.modrm
  rw [OpEnA.fields, hp0, hp1, hp2, hmodrm, ← hc.sib, ← hc.disp]

/-- Settles O2: admitted bytes are those of admitted fields, which are the fields of the instruction that they name. -/
theorem admittedBytesAreTheEncoding : Obligations.AdmittedBytesAreTheEncoding := by
  unfold Obligations.AdmittedBytesAreTheEncoding
  intro bs i rest h
  obtain ⟨op, vl, f, hf, rfl, rfl⟩ := decode_eq_ok_iff.1 h
  obtain ⟨hres, -⟩ := refusal_eq_none hf.passes
  have himm : encodeImm8 f.operands.pred = f.imm8 := encodeImm8_ofBits (hres rfl)
  rw [encode_eq, Instr.operands_of, Instr.vl_of, Instr.op_of, himm, hf.fields_operands]

end Sys2Proof
end

section
/-! SUPPORT. The statements about single fields of an instruction's bytes and about refused bytes (30_encoding.md R51 to
R71). -/

namespace Sys2Proof

/-! ### Fields as numbers -/

theorem toNat_modOf (b : Byte) : (modOf b).toNat = b.toNat / 64 := by revert b; decide
theorem toNat_regOf (b : Byte) : (regOf b).toNat = b.toNat / 8 % 8 := by revert b; decide
theorem toNat_rmOf (b : Byte) : (rmOf b).toNat = b.toNat % 8 := by revert b; decide

/-- ModRM.mod from its number. -/
theorem modOf_eq_iff {b : Byte} {x : BitVec 2} : modOf b = x ↔ b.toNat / 64 = x.toNat := by
  rw [← toNat_modOf, BitVec.toNat_inj]

/-- ModRM.rm, or SIB.base, from its number. -/
theorem rmOf_eq_iff {b : Byte} {x : BitVec 3} : rmOf b = x ↔ b.toNat % 8 = x.toNat := by
  rw [← toNat_rmOf, BitVec.toNat_inj]

/-- The second source is a register exactly when `mod` is 3 (R56). -/
theorem isReg_iff (f : Fields) : f.isReg = true ↔ f.modrm.toNat / 64 = 3 := by
  rw [Fields.isReg, beq_iff_eq, modOf_eq_iff]
  rfl

/-- A SIB byte is present exactly when `mod` is not 3 and `rm` is 4 (R50). -/
theorem hasSib_iff (b : Byte) : hasSib b = true ↔ b.toNat / 64 ≠ 3 ∧ b.toNat % 8 = 4 := by
  rw [hasSib, Bool.and_eq_true, bne_iff_ne, Ne, modOf_eq_iff, beq_iff_eq, rmOf_eq_iff]
  rfl

/-- The operand has no base register exactly in the two disp32-only cases (R58). -/
theorem isBaseless_iff (b sib : Byte) : isBaseless b sib = true ↔
    b.toNat / 64 = 0 ∧ (b.toNat % 8 = 5 ∨ (b.toNat % 8 = 4 ∧ sib.toNat % 8 = 5)) := by
  simp only [isBaseless, Bool.and_eq_true, Bool.or_eq_true, beq_iff_eq, modOf_eq_iff, rmOf_eq_iff]
  rfl

/-- A bit field is the bit. -/
theorem extractLsb'_one (b : Byte) (i : Nat) : b.extractLsb' i 1 = BitVec.ofBool (b.getLsbD i) := by
  refine BitVec.eq_of_getLsbD_eq fun j hj => ?_
  obtain rfl : j = 0 := by omega
  simp

/-- A stored bit that is clear is not 1. -/
theorem extractLsb'_one_ne {b : Byte} {i : Nat} (h : b.getLsbD i = false) : b.extractLsb' i 1 ≠ 1#1 := by
  rw [extractLsb'_one, h]
  decide

/-- Without a SIB byte its value does not matter (R58). -/
theorem isBaseless_of_not_hasSib {modrm : Byte} (h : hasSib modrm = false) (sib sib' : Byte) :
    isBaseless modrm sib = isBaseless modrm sib' := by
  have hm : modOf modrm = 0b00#2 → rmOf modrm ≠ 0b100#3 := fun h0 h4 => by simp [hasSib, h0, h4] at h
  by_cases h0 : modOf modrm = 0b00#2
  · rw [isBaseless, isBaseless, beq_false_of_ne (hm h0)]
    rfl
  · rw [isBaseless, isBaseless, beq_false_of_ne h0]
    rfl

/-- The byte after ModRM tells whether there is a base as the SIB byte does, since it is the SIB byte where one is looked
at (R58). -/
theorem Fields.Shaped.isBaseless_tail {f : Fields} (hf : f.Shaped) (rest : List Byte) :
    isBaseless f.modrm ((f.tail ++ rest).getD 0 0#8) = f.baseless := by
  unfold Fields.baseless
  cases hs : f.sib with
  | none => exact isBaseless_of_not_hasSib (by rw [← hf.1, hs]; rfl) _ _
  | some x => simp [Fields.tail, hs]

/-! ### Which bytes select a form -/

/-- A row's form is selected exactly when the mask leaves the form's match number (R65). -/
theorem map_selectRow_eq_some_iff {w : BitVec 40} {op : CmpOp} {vl : VecLen} :
    (selectRow w).map (fun r => (r.op, r.vl)) = some (op, vl) ↔ w &&& opcodeMask = matchWord op vl := by
  constructor
  · intro h
    obtain ⟨⟨op', vl', value⟩, hrow, heq⟩ := Option.map_eq_some_iff.1 h
    cases heq
    exact (selectRow_eq_some_iff.1 hrow).2
  · intro h
    rw [selectRow_eq_some_iff.2 ⟨rfl, h⟩]
    rfl

/-- The low four bits of an admitted P0: map 3, bit 3 clear (R51, R52). -/
theorem fixedP0 {p0 : Byte} (h : p0 &&& 0x0F#8 = 0x03#8) : p0.toNat % 8 = 3 ∧ p0.getLsbD 3 = false := by
  revert p0
  decide

/-- The fixed bits of an admitted P1: `W = 0`, `pp = 01`, bit 2 set (R51, R52). -/
theorem fixedP1 {p1 : Byte} (h : p1 &&& 0x87#8 = 0x05#8) :
    p1.getLsbD 7 = false ∧ p1.toNat % 4 = 1 ∧ p1.getLsbD 2 = true := by
  revert p1
  decide

/-- Both bits of `L'L` set are no form's vector length (R53, R69). -/
theorem and_ne_code {p2 : Byte} (h6 : p2.getLsbD 6 = true) (h5 : p2.getLsbD 5 = true) (vl : VecLen) :
    p2 &&& 0x60#8 ≠ 0#1 ++ vl.code ++ 0#5 := by
  have h : p2 &&& 0x60#8 = 0x60#8 := by
    revert p2
    decide
  rw [h]
  cases vl <;> decide

/-- Settles O5: the number of the five bytes, cut to the mask, is the one match number of the form. -/
theorem firstFiveBytesSelectTheForm : Obligations.FirstFiveBytesSelectTheForm := by
  unfold Obligations.FirstFiveBytesSelectTheForm
  intro b0 p0 p1 p2 opc
  have hform (op : CmpOp) (vl : VecLen) :
      (selectRow (leadWord b0 p0 p1 p2 opc)).map (fun r => (r.op, r.vl)) = some (op, vl) ↔
        (b0.toNat * 2 ^ 32 + p0.toNat * 2 ^ 24 + p1.toNat * 2 ^ 16 + p2.toNat * 2 ^ 8 + opc.toNat) &&& 0xFF0F8760FF
          = (matchWord op vl).toNat := by
    rw [← toNat_leadWord, map_selectRow_eq_some_iff, ← BitVec.toNat_inj, BitVec.toNat_and]
    rfl
  exact ⟨hform .vpcmpud .v128, hform .vpcmpud .v256, hform .vpcmpud .v512, hform .vpcmpd .v128, hform .vpcmpd .v256,
    hform .vpcmpd .v512⟩

/-- Settles O6: a form's first byte is 62h. -/
theorem firstByteOtherThan62IsRefused : Obligations.FirstByteOtherThan62IsRefused := by
  unfold Obligations.FirstByteOtherThan62IsRefused
  intro reserved b0 p0 p1 p2 opc bs h
  exact decode_eq_notInScope (fun _ _ h0 _ => absurd h0 h) reserved bs

/-- Settles O7: the field `L'L` of a form is 00, 01 or 10. -/
theorem lengthCode11IsRefused : Obligations.LengthCode11IsRefused := by
  unfold Obligations.LengthCode11IsRefused
  intro reserved b0 p0 p1 p2 opc bs h6 h5
  refine decode_eq_notInScope (fun op vl _ hfix => ?_) reserved bs
  obtain ⟨-, -, h⟩ := hfix
  exact absurd h (and_ne_code h6 h5 vl)

/-- Settles O8: each disjunct contradicts a fixed field of every form, or both opcode bytes. -/
theorem otherOpcodeFieldsAreRefused : Obligations.OtherOpcodeFieldsAreRefused := by
  unfold Obligations.OtherOpcodeFieldsAreRefused
  intro reserved b0 p0 p1 p2 opc bs h
  refine decode_eq_notInScope (fun op vl _ hfix hopc => ?_) reserved bs
  obtain ⟨hp0, hp1, -⟩ := hfix
  obtain ⟨hmap, h3⟩ := fixedP0 hp0
  obtain ⟨hw, hpp, h2⟩ := fixedP1 hp1
  rcases h with h | h | h | h | h | ⟨h1E, h1F⟩
  · exact Bool.false_ne_true (hw.symm.trans h)
  · exact h hpp
  · exact h hmap
  · exact Bool.false_ne_true (h3.symm.trans h)
  · exact Bool.false_ne_true (h.symm.trans h2)
  · cases op with
    | vpcmpud => exact h1E hopc
    | vpcmpd => exact h1F hopc

/-! ### Checks on single fields -/

/-- Settles O9: `z` is 0 in what passes the checks. -/
theorem zeroingBitIsRefused : Obligations.ZeroingBitIsRefused := by
  unfold Obligations.ZeroingBitIsRefused
  intro reserved b0 p0 p1 p2 bs h
  refine exists_error_of_not_ok fun i rest hd => ?_
  obtain ⟨op, vl, f, hf, -, -, -, rfl, -⟩ := decode_cons_eq_ok hd
  obtain ⟨-, -, hz, -⟩ := refusal_eq_none hf.passes
  exact Bool.false_ne_true (hz.symm.trans h)

/-- Settles O10: the check of R67. -/
theorem broadcastBitWithRegisterIsRefused : Obligations.BroadcastBitWithRegisterIsRefused := by
  unfold Obligations.BroadcastBitWithRegisterIsRefused
  intro reserved b0 p0 p1 p2 opc modrm bs hb hm
  refine exists_error_of_not_ok fun i rest hd => ?_
  obtain ⟨op, vl, f, hf, -, -, rfl, rfl, -⟩ := decode_cons_modrm_eq_ok hd
  obtain ⟨-, hreg, -⟩ := refusal_eq_none hf.passes
  rw [(isReg_iff f).2 hm, Bool.and_true] at hreg
  exact Bool.false_ne_true (hreg.symm.trans hb)

/-- Settles O11: the check of R58, with the SIB byte first in the tail where there is one. -/
theorem unusedExtensionBitIsRefused : Obligations.UnusedExtensionBitIsRefused := by
  unfold Obligations.UnusedExtensionBitIsRefused
  intro reserved b0 p0 p1 p2 opc modrm bs hm h
  refine exists_error_of_not_ok fun i rest hd => ?_
  obtain ⟨op, vl, f, hf, -, rfl, -, rfl, rfl⟩ := decode_cons_modrm_eq_ok hd
  obtain ⟨-, -, -, -, -, hu⟩ := refusal_eq_none hf.passes
  have hreg : f.isReg = false := Bool.eq_false_iff.2 (mt (isReg_iff f).1 hm)
  obtain ⟨hx, hb⟩ := (unusedBitClear_eq_false_iff hreg).1 hu
  rcases h with ⟨h6, hrm⟩ | ⟨h5, hbase⟩
  · have hsib : hasSib f.modrm = false := Bool.eq_false_iff.2 fun h => hrm ((hasSib_iff f.modrm).1 h).2
    exact extractLsb'_one_ne h6 (hx hsib)
  · have hbase : f.baseless = true := by
      rw [← hf.shaped.isBaseless_tail rest, isBaseless_iff]
      exact hbase
    exact extractLsb'_one_ne h5 (hb hbase)

/-- Settles O12: the operand is the field, and the check of R54. -/
theorem destinationIsModRMReg : Obligations.DestinationIsModRMReg := by
  unfold Obligations.DestinationIsModRMReg
  intro reserved b0 p0 p1 p2 opc modrm bs
  constructor
  · intro i rest hd
    obtain ⟨op, vl, f, hf, rfl, -, -, rfl, -⟩ := decode_cons_modrm_eq_ok hd
    rw [Instr.operands_of]
    exact toNat_regOf f.modrm
  · intro h
    refine exists_error_of_not_ok fun i rest hd => ?_
    obtain ⟨op, vl, f, hf, -, rfl, -, -, -⟩ := decode_cons_modrm_eq_ok hd
    obtain ⟨-, -, -, h7, h4, -⟩ := refusal_eq_none hf.passes
    rcases h with h | h
    · exact Bool.false_ne_true (h.symm.trans h7)
    · exact Bool.false_ne_true (h.symm.trans h4)

/-! ### The operands -/

/-- The field vvvv bit by bit (R51). -/
theorem extractLsb'_vvvv (p1 : Byte) : p1.extractLsb' 3 4 = BitVec.ofBool (p1.getLsbD 6) ++
    BitVec.ofBool (p1.getLsbD 5) ++ BitVec.ofBool (p1.getLsbD 4) ++ BitVec.ofBool (p1.getLsbD 3) := by
  revert p1
  decide

/-- Five bits stored inverted are 31 minus the number that they store (R55). -/
theorem val_not_bits (v' v3 v2 v1 v0 : Bool) :
    (~~~ BitVec.ofBool v' ++
        ~~~ (BitVec.ofBool v3 ++ BitVec.ofBool v2 ++ BitVec.ofBool v1 ++ BitVec.ofBool v0)).toFin.val
      = 31 - (16 * v'.toNat + 8 * v3.toNat + 4 * v2.toNat + 2 * v1.toNat + v0.toNat) := by
  revert v' v3 v2 v1 v0
  decide

/-- Two bits stored inverted above three others (R56). -/
theorem val_not_bits_append (x b : Bool) (low : BitVec 3) :
    (~~~ BitVec.ofBool x ++ ~~~ BitVec.ofBool b ++ low).toFin.val
      = 16 * (1 - x.toNat) + 8 * (1 - b.toNat) + low.toNat := by
  revert x b low
  decide

/-- Settles O13: five inverted bits are 31 minus their number. -/
theorem firstSourceIsInvertedVvvv : Obligations.FirstSourceIsInvertedVvvv := by
  unfold Obligations.FirstSourceIsInvertedVvvv
  intro reserved b0 p0 p1 p2 bs i rest hd
  obtain ⟨op, vl, f, hf, rfl, -, rfl, rfl, -⟩ := decode_cons_eq_ok hd
  have hsrc : f.operands.src1 = (~~~ (f.p2.extractLsb' 3 1) ++ ~~~ (f.p1.extractLsb' 3 4)).toFin := rfl
  rw [Instr.operands_of, hsrc, extractLsb'_one, extractLsb'_vvvv]
  exact val_not_bits ..

/-- Settles O14: the three cases of the second source (R56, R59). -/
theorem secondSourceFollowsModRM : Obligations.SecondSourceFollowsModRM := by
  unfold Obligations.SecondSourceFollowsModRM
  intro reserved b0 p0 p1 p2 opc modrm bs i rest hd
  obtain ⟨op, vl, f, hf, rfl, rfl, rfl, rfl, -⟩ := decode_cons_modrm_eq_ok hd
  have hsrc : f.operands.src2 = f.src2 := rfl
  rw [Instr.operands_of, hsrc]
  refine ⟨fun hreg => ⟨_, if_pos ((isReg_iff f).2 hreg), ?_⟩,
    fun hreg hb => ⟨f.addrMode, ?_⟩, fun hreg hb => ⟨f.addrMode, ?_⟩⟩
  · rw [← toNat_rmOf, Fields.xBar, Fields.bBar, extractLsb'_one, extractLsb'_one]
    exact val_not_bits_append ..
  · rw [Fields.src2, if_neg (mt (isReg_iff f).1 hreg), Fields.bcst, hb, if_neg Bool.false_ne_true]
  · rw [Fields.src2, if_neg (mt (isReg_iff f).1 hreg), Fields.bcst, hb, if_pos rfl]

/-- Settles O15: the writemask is its field, and `z` is 0 in what passes the checks. -/
theorem writemaskIsFieldAaa : Obligations.WritemaskIsFieldAaa := by
  unfold Obligations.WritemaskIsFieldAaa
  intro reserved b0 p0 p1 p2 bs i rest hd
  obtain ⟨op, vl, f, hf, rfl, -, -, rfl, -⟩ := decode_cons_eq_ok hd
  obtain ⟨-, -, hz, -⟩ := refusal_eq_none hf.passes
  have haaa : (f.p2.extractLsb' 0 3).toNat = f.p2.toNat % 8 := BitVec.extractLsb'_toNat 0 3 f.p2
  have hmask : f.operands.mask = if f.p2.extractLsb' 0 3 = 0#3 then none else some (f.p2.extractLsb' 0 3).toFin := rfl
  rw [Instr.operands_of, hmask, ← haaa]
  refine ⟨fun h => if_pos (BitVec.eq_of_toNat_eq h), fun h => ?_, hz⟩
  rw [if_neg fun h0 => h (congrArg BitVec.toNat h0)]
  exact ⟨_, rfl, rfl⟩

/-- The predicate that bits name is at their number in R80's list. -/
theorem ofBits_eq_getElem? (imm8 : Byte) :
    [Predicate.eq, .lt, .le, .never, .neq, .nlt, .nle, .always][imm8.toNat % 8]?
      = some (Predicate.ofBits (imm8.extractLsb' 0 3)) := by
  revert imm8
  decide

/-- Bits 7:3 of a byte are 0 exactly when its number is below 8. -/
theorem reserved_eq_zero_iff (imm8 : Byte) : imm8.extractLsb' 3 5 = 0#5 ↔ imm8.toNat / 8 = 0 := by
  revert imm8
  decide

/-- Settles O16: the immediate is the last field, and its reserved bits are asked under `refuse` only. -/
theorem reservedImmediateBits : Obligations.ReservedImmediateBits := by
  unfold Obligations.ReservedImmediateBits
  intro i imm8 rest hi
  dsimp only
  rw [dropLast_encode_append, decode_fields_bytes hi, decode_fields_bytes hi]
  refine ⟨⟨_, ofBits_eq_getElem? imm8, rfl, fun h => if_neg ?_⟩, fun h => if_pos ?_⟩
  · simp [(reserved_eq_zero_iff imm8).2 h]
  · simpa [reserved_eq_zero_iff] using h

/-- Settles O18: the decoder runs on the five words. -/
theorem sampleWordsDecode : Obligations.SampleWordsDecode := by
  unfold Obligations.SampleWordsDecode
  decide

end Sys2Proof
end

section
/-! SUPPORT. The length of an instruction, from its bytes and from what the decoder consumes (30_encoding.md R60, R64), and
the step that fetches by it (40_vpcmpud.md R89). -/

namespace Sys2Proof

/-! ### The length rule (R64) -/

/-- A displacement has 0, 1 or 4 bytes (R60). -/
theorem dispSize_cases (modrm sib : Byte) :
    dispSize modrm sib = 0 ∨ dispSize modrm sib = 1 ∨ dispSize modrm sib = 4 := by
  unfold dispSize
  split_ifs <;> simp

/-- The length rule gives 7, 8, 9, 11 or 12, whatever the bytes. -/
theorem fetchLength_mem (modrm next : Byte) : fetchLength modrm next ∈ [7, 8, 9, 11, 12] := by
  unfold fetchLength
  rcases dispSize_cases modrm next with h | h | h <;> rw [h] <;> cases hasSib modrm <;> decide

theorem seven_le_fetchLength (modrm next : Byte) : 7 ≤ fetchLength modrm next := by
  rw [fetchLength, Nat.add_assoc]
  exact Nat.le_add_right 7 _

/-- The length rule on the numbers of ModRM and of the byte after it (R64). -/
theorem fetchLength_eq (modrm next : Byte) : fetchLength modrm next = 7
    + (if modrm.toNat / 64 ≠ 3 ∧ modrm.toNat % 8 = 4 then 1 else 0)
    + (if modrm.toNat / 64 = 1 then 1
       else if modrm.toNat / 64 = 2 then 4
       else if modrm.toNat / 64 = 0 ∧ (modrm.toNat % 8 = 5 ∨ (modrm.toNat % 8 = 4 ∧ next.toNat % 8 = 5)) then 4
       else 0) := by
  simp only [fetchLength, dispSize, hasSib_iff, isBaseless_iff, beq_iff_eq, modOf_eq_iff]
  rfl

/-- The byte after ModRM stands in for the SIB byte in the length rule (R64). -/
theorem Fields.Shaped.fetchLength_tail {f : Fields} (hf : f.Shaped) (rest : List Byte) :
    fetchLength f.modrm ((f.tail ++ rest).getD 0 0#8) = 7 + f.sib.toList.length + f.disp.size := by
  have hsib : (if hasSib f.modrm then 1 else 0) = f.sib.toList.length := by
    rw [← hf.1]
    cases f.sib <;> rfl
  have hdisp : dispSize f.modrm ((f.tail ++ rest).getD 0 0#8) = f.disp.size := by
    rw [hf.2, dispSize, hf.isBaseless_tail rest]
    rfl
  rw [fetchLength, hsib, hdisp]

/-- The operands that admitted fields name take the fields' SIB and displacement bytes. -/
theorem Fields.Admitted.length_operands {reserved : ReservedImm8} {vl : VecLen} {f : Fields}
    (hf : f.Admitted reserved vl) : f.operands.length = 7 + f.sib.toList.length + f.disp.size := by
  obtain ⟨-, hb, -, -, -, hu⟩ := refusal_eq_none hf.passes
  have hc := f.carries_src2 hf.shaped hb hu
  have hs : f.operands.src2 = f.src2 := rfl
  rw [OpEnA.length, hs, Src2.size_eq, ← hc.sib, ← hc.disp, Nat.add_assoc]

theorem Fields.length_tail (f : Fields) : f.tail.length = f.sib.toList.length + (f.disp.size + 1) := by
  simp only [Fields.tail, List.length_append, Disp.length_encode, List.length_singleton]

/-- The length of a decoded instruction is the length rule's on bytes +5 and +6, and the number of bytes consumed (R64). -/
theorem decode_length {reserved : ReservedImm8} {bs rest : List Byte} {i : Instr}
    (h : decode reserved bs = .ok (i, rest)) :
    i.length = fetchLength (bs.getD 5 0#8) (bs.getD 6 0#8) ∧ bs.length = i.length + rest.length := by
  obtain ⟨op, vl, f, hf, rfl, rfl⟩ := decode_eq_ok_iff.1 h
  have hlen : (Instr.of op vl f.operands).length = 7 + f.sib.toList.length + f.disp.size := by
    rw [Instr.length, Instr.operands_of, hf.length_operands]
  rw [hlen]
  constructor
  · exact (hf.shaped.fetchLength_tail rest).symm
  · simp only [Fields.bytes, List.length_append, List.length_cons, Fields.length_tail]
    omega

/-- Settles O4: the length rule on ModRM and the byte after it. -/
theorem decodedLengthFollowsModRMAndSib : Obligations.DecodedLengthFollowsModRMAndSib := by
  unfold Obligations.DecodedLengthFollowsModRMAndSib
  intro reserved b0 p0 p1 p2 opc modrm bs i rest h
  obtain ⟨hlen, hcount⟩ := decode_length h
  have hbytes : i.length = fetchLength modrm (bs.getD 0 0#8) := hlen
  exact ⟨hbytes.trans (fetchLength_eq modrm _), hcount, hbytes ▸ fetchLength_mem modrm _⟩

/-! ### Enough bytes are never truncated -/

/-- A displacement and one more byte can be taken where there are as many bytes. -/
theorem exists_takeDisp {n : Nat} (hn : n = 0 ∨ n = 1 ∨ n = 4) {bs : List Byte} (h : n + 1 ≤ bs.length) :
    ∃ d b rest, takeDisp n bs = some (d, b :: rest) := by
  rcases hn with rfl | rfl | rfl
  · obtain ⟨b, bs, rfl⟩ := List.exists_cons_of_length_pos h
    exact ⟨_, _, _, rfl⟩
  · match bs, h with
    | d :: b :: bs, _ => exact ⟨_, _, _, rfl⟩
  · match bs, h with
    | d0 :: d1 :: d2 :: d3 :: b :: bs, _ => exact ⟨_, _, _, rfl⟩

/-- Where as many bytes stand as the length rule asks for, what follows the opcode byte splits into fields. -/
theorem splitFields_ne_none {modrm next : Byte} {bs : List Byte} (h : fetchLength modrm next ≤ 7 + bs.length)
    (p0 p1 p2 : Byte) : splitFields p0 p1 p2 (modrm :: next :: bs) ≠ none := by
  cases hs : hasSib modrm with
  | true =>
    have hsib : takeSib modrm (next :: bs) = some (some next, bs) := by simp [takeSib, hs]
    have hlen : dispSize modrm next + 1 ≤ bs.length := by
      simp only [fetchLength, hs, if_true] at h
      omega
    obtain ⟨d, b, rest, hd⟩ := exists_takeDisp (dispSize_cases modrm next) hlen
    simp [splitFields, hsib, hd]
  | false =>
    have hsib : takeSib modrm (next :: bs) = some (none, next :: bs) := by simp [takeSib, hs]
    have hlen : dispSize modrm 0#8 + 1 ≤ (next :: bs).length := by
      have hsize : dispSize modrm 0#8 = dispSize modrm next := by
        rw [dispSize, dispSize, isBaseless_of_not_hasSib hs 0#8 next]
      simp only [fetchLength, hs, Bool.false_eq_true, if_false, ← hsize] at h
      rw [List.length_cons]
      omega
    obtain ⟨d, b, rest, hd⟩ := exists_takeDisp (dispSize_cases modrm 0#8) hlen
    simp [splitFields, hsib, hd]

/-- The checks never answer `truncated`. -/
theorem refusal_ne_truncated (reserved : ReservedImm8) (f : Fields) : f.refusal reserved ≠ some .truncated := by
  unfold Fields.refusal
  split_ifs <;> simp

/-- With five bytes there, `truncated` means that the rest does not split into fields. -/
theorem splitFields_eq_none_of_truncated {reserved : ReservedImm8} {b0 p0 p1 p2 opc : Byte} {bs : List Byte}
    (h : decode reserved (b0 :: p0 :: p1 :: p2 :: opc :: bs) = .error .truncated) : splitFields p0 p1 p2 bs = none := by
  simp only [decode] at h
  split at h
  · cases h
  · split at h
    next hs => exact hs
    next f rest hs =>
      split at h
      next why hr =>
        cases h
        exact absurd hr (refusal_ne_truncated reserved f)
      · cases h

/-- The decoder does not answer `truncated` on as many bytes as the length rule asks for (log entry 15). -/
theorem decode_ne_truncated {reserved : ReservedImm8} {bs : List Byte}
    (h : bs.length = fetchLength (bs.getD 5 0#8) (bs.getD 6 0#8)) : decode reserved bs ≠ .error .truncated := by
  have h7 := seven_le_fetchLength (bs.getD 5 0#8) (bs.getD 6 0#8)
  rw [← h] at h7
  match bs, h7, h with
  | b0 :: p0 :: p1 :: p2 :: opc :: modrm :: next :: bs, _, h =>
    intro htrunc
    have hbytes : (b0 :: p0 :: p1 :: p2 :: opc :: modrm :: next :: bs).length = fetchLength modrm next := h
    have hlen : fetchLength modrm next ≤ 7 + bs.length := by
      simp only [List.length_cons] at hbytes
      omega
    exact splitFields_ne_none hlen p0 p1 p2 (splitFields_eq_none_of_truncated htrunc)

end Sys2Proof

namespace Sys2Proof.Machine

/-! ### The step (R89) -/

/-- The length at `pc` is the length rule's on bytes +5 and +6 of what is read there (R64). -/
theorem lengthAtPc_eq (s : State) {n : Nat} (hn : 7 ≤ n) :
    lengthAtPc s = fetchLength ((readBytes s s.pc n).getD 5 0#8) ((readBytes s s.pc n).getD 6 0#8) := by
  have h (j : Nat) (hj : j < n) : (readBytes s s.pc n).getD j 0#8 = readByte s (s.pc + BitVec.ofNat 64 j) := by
    rw [List.getD_eq_getElem?_getD, readBytes_getElem? s n s.pc j hj, Option.getD_some]
  rw [h 5 (by omega), h 6 (by omega)]
  rfl

theorem seven_le_lengthAtPc (s : State) : 7 ≤ lengthAtPc s := seven_le_fetchLength _ _

/-- Where the bytes at `pc` are accessible, the step decodes them and runs the instruction (R89). -/
theorem step_of_accessible {s : State} (h : accessible s.params s.pc (lengthAtPc s) = true) :
    step s = (decodeFetched s (readBytes s s.pc (lengthAtPc s))).thenDo fun i => exec i s := by
  have hfetch : fetchBytes s = .next (readBytes s s.pc (lengthAtPc s)) := by
    rcases fetchBytes_cases s with ⟨h7, -⟩ | ⟨-, hn, -⟩ | ⟨-, -, hf⟩
    · cases h7.symm.trans (accessible_mono (seven_le_lengthAtPc s) h)
    · cases hn.symm.trans h
    · exact hf
  rw [step, fetchInstr, hfetch, thenDo_next]

/-! ### What is refused (R71) -/

/-- A chained operation is refused by its first part or by its second. -/
theorem thenDo_eq_refused {α β : Type} {r : Result α} {f : α → Result β} {x : Refusal} (h : r.thenDo f = .refused x) :
    r = .refused x ∨ ∃ a, r = .next a ∧ f a = .refused x := by
  cases r with
  | next a => exact .inr ⟨a, rfl, h⟩
  | fault y => cases h
  | refused y => cases h; exact .inl rfl

/-- A read of bytes goes on or faults. -/
theorem loadBytes_ne_refused (s : State) (a : Word) (n : Nat) (x : Refusal) : loadBytes s a n ≠ .refused x := by
  rcases loadBytes_cases s a n with ⟨-, hl⟩ | ⟨-, hl⟩ <;> rw [hl] <;> exact nofun

/-- A broadcast read goes on or faults. -/
theorem loadBroadcast_ne_refused (s : State) (a : Word) (x : Refusal) : loadBroadcast s a ≠ .refused x := by
  rcases loadBroadcast_cases s a with ⟨-, hl⟩ | ⟨-, hl⟩ <;> rw [hl]
  · exact nofun
  · exact loadBytes_ne_refused s a 4 x

/-- The second source goes on or faults. -/
theorem secondSource_ne_refused (s : State) (vl : VecLen) (o : OpEnA) (x : Refusal) :
    secondSource s vl o ≠ .refused x := by
  intro h
  unfold secondSource at h
  split at h
  · cases h
  · rcases thenDo_eq_refused h with hl | ⟨v, -, hv⟩
    · exact loadBytes_ne_refused _ _ _ _ hl
    · cases hv
  · rcases thenDo_eq_refused h with hl | ⟨v, -, hv⟩
    · exact loadBroadcast_ne_refused _ _ _ hl
    · cases hv

/-- A missing register is at or above `NUM_ZMM`. -/
theorem le_of_missingVReg {p : Params} {n m : VReg} (h : missingVReg p n = some m) : p.numZmm ≤ m.val := by
  unfold missingVReg at h
  split at h
  · cases h
  next hn => cases h; exact Nat.not_lt.1 hn

/-- The first missing operand is at or above `NUM_ZMM`. -/
theorem le_of_missingOperand {p : Params} {o : OpEnA} {n : VReg} (h : missingOperand p o = some n) :
    p.numZmm ≤ n.val := by
  rcases Option.or_eq_some_iff.1 h with h1 | ⟨-, h2⟩
  · exact le_of_missingVReg h1
  · unfold Src2.missing at h2
    split at h2
    · exact le_of_missingVReg h2
    · cases h2
    · cases h2

/-- An instruction is refused for its first missing operand only (log entry 3). -/
theorem exec_refused {i : Instr} {s : State} {r : Refusal} (h : exec i s = .refused r) :
    ∃ n, missingOperand s.params i.operands = some n ∧ r = .noSuchVectorRegister n := by
  rw [exec_eq] at h
  rcases comparePacked_cases i.op i.vl i.operands s with ⟨-, he⟩ | ⟨-, n, hn, he⟩ | ⟨-, -, he⟩ <;> rw [he] at h
  · cases h
  · cases h
    exact ⟨n, hn, rfl⟩
  · rcases thenDo_eq_refused h with hs | ⟨c, -, hc⟩
    · exact absurd hs (secondSource_ne_refused s i.vl i.operands r)
    · cases hc

/-- Steps 1 and 2 are refused by the decoder only, and never as truncated: the fetch reads the whole length (R64, R71). -/
theorem fetchInstr_refused {s : State} {r : Refusal} (h : fetchInstr s = .refused r) :
    ∃ why, why ≠ DecodeRefusal.truncated ∧ r = .undecodable why := by
  rcases fetchBytes_cases s with ⟨-, hf⟩ | ⟨-, -, hf⟩ | ⟨-, -, hf⟩ <;> rw [fetchInstr, hf] at h
  · cases h
  · cases h
  · rw [thenDo_next] at h
    rcases decodeFetched_cases s (readBytes s s.pc (lengthAtPc s)) with ⟨why, hd, hr⟩ | ⟨i, rest, -, hr⟩ <;>
      rw [hr] at h
    · cases h
      have hlen := lengthAtPc_eq s (seven_le_lengthAtPc s)
      refine ⟨why, fun hwhy => decode_ne_truncated ?_ (hwhy ▸ hd), rfl⟩
      rw [readBytes_length]
      exact hlen
    · cases h

/-! ### The statements -/

/-- Settles O45: the length rule on an encoding is its instruction's length, and the decoder reads the instruction back. -/
theorem encodedInstructionAtPcRuns : Obligations.EncodedInstructionAtPcRuns := by
  unfold Obligations.EncodedInstructionAtPcRuns
  intro s i hi hacc hbytes
  have hdec : decode s.params.reservedImm8 (encode i) = .ok (i, []) := by
    simpa using decodeEncodeRoundTrip s.params.reservedImm8 i [] hi
  have hlen : lengthAtPc s = i.length := by
    rw [lengthAtPc_eq s (n := i.length) (Nat.le_add_right 7 _), hbytes]
    exact (decode_length hdec).1.symm
  rw [step_of_accessible (hlen ▸ hacc), hlen, hbytes]
  simp only [decodeFetched, hdec, thenDo_next]

/-- Settles O47: the fetch reads enough bytes, and an instruction is refused for a missing register only. -/
theorem refusalsOfAStep : Obligations.RefusalsOfAStep := by
  unfold Obligations.RefusalsOfAStep
  intro s r h
  rcases thenDo_eq_refused h with hf | ⟨i, -, he⟩
  · obtain ⟨why, hwhy, rfl⟩ := fetchInstr_refused hf
    exact .inl ⟨why, by cases why <;> simp at hwhy ⊢, rfl⟩
  · obtain ⟨n, hn, rfl⟩ := exec_refused he
    exact .inr ⟨n, le_of_missingOperand hn, rfl⟩

end Sys2Proof.Machine
end

section
/-! SUPPORT. The effective address against R58's pseudocode on the bytes (30_encoding.md R58, R60, R61). -/

namespace Sys2Proof.Machine

/-! ### The registers of the pseudocode -/

theorem gprNumbered_val (s : State) (r : GReg) : gprNumbered s r.val = readGpr s r := by
  simp [gprNumbered, readGpr]

/-- A general register's number is 8 for a stored extension bit 0, plus its low bits (R58). -/
theorem val_gregOf_not (p0 : Byte) (i : Nat) (low : BitVec 3) :
    (gregOf (~~~ (p0.extractLsb' i 1)) low).val = (if p0.getLsbD i then 0 else 8) + low.toNat := by
  rw [extractLsb'_one]
  generalize p0.getLsbD i = b
  revert b low
  decide

/-- The base register of the pseudocode (R58). -/
theorem gprNumbered_base (s : State) (p0 b : Byte) :
    gprNumbered s ((if p0.getLsbD 5 then 0 else 8) + b.toNat % 8)
      = readGpr s (gregOf (~~~ (p0.extractLsb' 5 1)) (rmOf b)) := by
  rw [← toNat_rmOf, ← val_gregOf_not, gprNumbered_val]

/-- The scaled index of the pseudocode (R58). -/
theorem indexValue_indexOf (s : State) (p0 b : Byte) :
    indexValue s (b.extractLsb' 6 2) (indexOf (~~~ (p0.extractLsb' 6 1)) (b.extractLsb' 3 3))
      = if (if p0.getLsbD 6 then 0 else 8) + b.toNat / 8 % 8 = 4 then 0#64
        else gprNumbered s ((if p0.getLsbD 6 then 0 else 8) + b.toNat / 8 % 8)
          * BitVec.ofNat 64 (2 ^ (b.toNat / 64)) := by
  have hscale : (b.extractLsb' 6 2).toNat = b.toNat / 64 := toNat_modOf b
  have hindex : (b.extractLsb' 3 3).toNat = b.toNat / 8 % 8 := toNat_regOf b
  have hfour (r : GReg) : r = 4 ↔ r.val = 4 := Fin.ext_iff
  rw [← hscale, ← hindex, ← val_gregOf_not, gprNumbered_val, indexOf]
  simp only [hfour]
  split <;> rfl

/-! ### The displacement of the pseudocode -/

theorem dwordAt_disp32Bytes (d : BitVec 32) (xs : List Byte) : dwordAt (disp32Bytes d ++ xs) 0 = d :=
  append_disp32Bytes d

theorem dwordAt_cons_one (x : Byte) (xs : List Byte) : dwordAt (x :: xs) 1 = dwordAt xs 0 := rfl

/-- The displacement of the pseudocode, where its bytes are the first (R60, R61). -/
theorem dispValue_eq {d : Disp} {modrm : Byte} (h : modOf modrm = d.mod) (xs : List Byte) (n : Nat) :
    dispValue n d = if modrm.toNat / 64 = 0 then 0#64
      else if modrm.toNat / 64 = 1 then ((d.encode ++ xs).getD 0 0#8).signExtend 64 * BitVec.ofNat 64 n
      else (dwordAt (d.encode ++ xs) 0).signExtend 64 := by
  rw [← toNat_modOf, h]
  cases d with
  | none => rfl
  | disp8 d => rfl
  | disp32 d => exact congrArg (BitVec.signExtend 64) (dwordAt_disp32Bytes d xs).symm

/-! ### The two halves of the pseudocode -/

/-- The pseudocode's test for a SIB byte. -/
theorem rmOf_eq_four_iff (b : Byte) : rmOf b = 0b100#3 ↔ b.toNat % 8 = 4 := rmOf_eq_iff

/-- The pseudocode's test for a displacement without a base. -/
theorem mod_zero_and_five_iff (modrm b : Byte) :
    modOf modrm = 0b00#2 ∧ rmOf b = 0b101#3 ↔ modrm.toNat / 64 = 0 ∧ b.toNat % 8 = 5 :=
  and_congr modOf_eq_iff rmOf_eq_iff

/-- Without a SIB byte (R58). -/
theorem addressFromBytes_of_no_sib {modrm : Byte} (h : rmOf modrm ≠ 0b100#3) (s : State) (p0 : Byte) (bs : List Byte)
    (len n : Nat) : addressFromBytes s p0 modrm bs len n =
      if modOf modrm = 0b00#2 ∧ rmOf modrm = 0b101#3 then
        s.pc + BitVec.ofNat 64 len + (dwordAt bs 0).signExtend 64
      else readGpr s (gregOf (~~~ (p0.extractLsb' 5 1)) (rmOf modrm)) +
        if modrm.toNat / 64 = 0 then 0#64
        else if modrm.toNat / 64 = 1 then (bs.getD 0 0#8).signExtend 64 * BitVec.ofNat 64 n
        else (dwordAt bs 0).signExtend 64 := by
  rw [Ne, rmOf_eq_four_iff] at h
  simp only [addressFromBytes, ← gprNumbered_base, mod_zero_and_five_iff, if_pos h, if_neg h]

/-- With a SIB byte (R58). -/
theorem addressFromBytes_of_sib {modrm : Byte} (h : rmOf modrm = 0b100#3) (s : State) (p0 sib : Byte) (bs : List Byte)
    (len n : Nat) : addressFromBytes s p0 modrm (sib :: bs) len n =
      if modOf modrm = 0b00#2 ∧ rmOf sib = 0b101#3 then
        indexValue s (sib.extractLsb' 6 2) (indexOf (~~~ (p0.extractLsb' 6 1)) (sib.extractLsb' 3 3))
          + (dwordAt bs 0).signExtend 64
      else readGpr s (gregOf (~~~ (p0.extractLsb' 5 1)) (rmOf sib))
        + indexValue s (sib.extractLsb' 6 2) (indexOf (~~~ (p0.extractLsb' 6 1)) (sib.extractLsb' 3 3)) +
        if modrm.toNat / 64 = 0 then 0#64
        else if modrm.toNat / 64 = 1 then (bs.getD 0 0#8).signExtend 64 * BitVec.ofNat 64 n
        else (dwordAt bs 0).signExtend 64 := by
  rw [rmOf_eq_four_iff] at h
  simp only [addressFromBytes, indexValue_indexOf, ← gprNumbered_base, mod_zero_and_five_iff, if_pos h,
    if_neg (not_not.2 h), dwordAt_cons_one, List.getD_cons_zero, List.getD_cons_succ]

/-! ### The statement -/

/-- The address form that fields of the right shape name has the address of the pseudocode on their bytes (R58). -/
theorem effectiveAddress_addrMode {f : Fields} (hf : f.Shaped) (hreg : f.isReg = false) (s : State) (len n : Nat)
    (rest : List Byte) :
    effectiveAddress s len n f.addrMode = addressFromBytes s f.p0 f.modrm (f.tail ++ rest) len n := by
  have hspell := hf.spells hreg
  generalize f.addrMode = a at hspell
  cases hspell with
  | pcRel d hs h4 hbl h0 h5 hd =>
    have htail : f.tail ++ rest = disp32Bytes d ++ (f.imm8 :: rest) := by simp [Fields.tail, hs, hd, Disp.encode]
    rw [htail, addressFromBytes_of_no_sib h4, if_pos ⟨h0, h5⟩, dwordAt_disp32Bytes, effectiveAddress]
  | base hs h4 hmod h5 =>
    have htail : f.tail ++ rest = f.disp.encode ++ (f.imm8 :: rest) := by simp [Fields.tail, hs]
    rw [htail, addressFromBytes_of_no_sib h4, if_neg h5, ← dispValue_eq hmod, effectiveAddress, Fields.bBar]
  | sib x hs h4 hmod h5 =>
    have htail : f.tail ++ rest = x :: (f.disp.encode ++ (f.imm8 :: rest)) := by simp [Fields.tail, hs]
    rw [htail, addressFromBytes_of_sib h4, if_neg h5, ← dispValue_eq hmod, effectiveAddress, Fields.bBar, Fields.xBar]
  | sibNoBase x d hs h4 hbl h0 h5 hd =>
    have htail : f.tail ++ rest = x :: (disp32Bytes d ++ (f.imm8 :: rest)) := by simp [Fields.tail, hs, hd, Disp.encode]
    rw [htail, addressFromBytes_of_sib h4, if_pos ⟨h0, h5⟩, dwordAt_disp32Bytes, effectiveAddress, Fields.xBar]

/-- Settles O17: the operand's factor and length are its own form's. -/
theorem effectiveAddressFollowsTheBytes : Obligations.EffectiveAddressFollowsTheBytes := by
  unfold Obligations.EffectiveAddressFollowsTheBytes
  intro reserved s b0 p0 p1 p2 opc modrm bs i rest hd hm
  obtain ⟨op, vl, f, hf, rfl, rfl, rfl, rfl, rfl⟩ := decode_cons_modrm_eq_ok hd
  have hreg : f.isReg = false := Bool.eq_false_iff.2 (mt (isReg_iff f).1 hm)
  have hsrc : f.operands.src2 = if f.p2.getLsbD 4 then .bcst f.addrMode else .mem f.addrMode :=
    if_neg (Bool.eq_false_iff.1 hreg)
  have hbytes : operandBytes vl f.operands.src2 = if f.p2.getLsbD 4 then 4 else vl.bytes := by
    rw [hsrc]
    split <;> rfl
  refine ⟨f.addrMode, ?_, ?_⟩
  · rw [Instr.operands_of, hsrc]
  · rw [operandAddress, Instr.operands_of, Instr.vl_of, hbytes, Instr.length, Instr.operands_of]
    exact effectiveAddress_addrMode hf.shaped hreg s _ _ rest

end Sys2Proof.Machine
end

section
/-! SUPPORT. The predicates on integers and the unsigned order of elements (40_vpcmpud.md R80, R88). -/

namespace Sys2Proof.Machine

/-! ### Predicates (R80) -/

theorem compareInts_eq_iff {a b : Int} : compareInts .eq a b = true ↔ a = b := decide_eq_true_iff
theorem compareInts_lt_iff {a b : Int} : compareInts .lt a b = true ↔ a < b := decide_eq_true_iff
theorem compareInts_le_iff {a b : Int} : compareInts .le a b = true ↔ a ≤ b := decide_eq_true_iff
theorem compareInts_neq_iff {a b : Int} : compareInts .neq a b = true ↔ a ≠ b := by simp [compareInts]
theorem compareInts_nlt_iff {a b : Int} : compareInts .nlt a b = true ↔ b ≤ a := by simp [compareInts]
theorem compareInts_nle_iff {a b : Int} : compareInts .nle a b = true ↔ b < a := by simp [compareInts]

/-- A predicate numbered 4 to 7 negates the one four below it. -/
theorem compareInts_ofBits_add_four {p : BitVec 3} (hp : p.toNat < 4) (a b : Int) :
    compareInts (.ofBits (p + 4)) a b = !compareInts (.ofBits p) a b := by
  have hcases : p = 0#3 ∨ p = 1#3 ∨ p = 2#3 ∨ p = 3#3 := by revert p; decide
  rcases hcases with rfl | rfl | rfl | rfl <;> rfl

/-! ### The unsigned order (R88) -/

theorem u32_nonneg (x : Dword) : 0 ≤ u32 x := Int.natCast_nonneg _

theorem u32_le (x : Dword) : u32 x ≤ 2 ^ 32 - 1 := by
  have hx := x.isLt
  rw [u32]
  omega

theorem u32_inj {x y : Dword} : u32 x = u32 y ↔ x = y := by
  rw [u32, u32, Int.natCast_inj, BitVec.toNat_inj]

/-! ### The statements -/

/-- Settles O19: each predicate's own comparison, and the four negations case by case. -/
theorem predicateTable : Obligations.PredicateTable := by
  unfold Obligations.PredicateTable
  exact ⟨fun a b => ⟨compareInts_eq_iff, compareInts_lt_iff, compareInts_le_iff, rfl, compareInts_neq_iff,
    compareInts_nlt_iff, compareInts_nle_iff, rfl⟩, fun p a b hp => compareInts_ofBits_add_four hp a b⟩

/-- Settles O20: an element is a number from 0 to 2^32 - 1, and equal numbers are equal elements. -/
theorem unsignedCornerValues : Obligations.UnsignedCornerValues := by
  unfold Obligations.UnsignedCornerValues
  intro x
  have hmin : u32 0 ≤ u32 x := u32_nonneg x
  have hmax : u32 x ≤ u32 0xFFFFFFFF := u32_le x
  refine ⟨hmin, hmax, by decide, ?lt, compareInts_le_iff.2 hmin, compareInts_nlt_iff.2 hmin, ?nle⟩
  case lt => exact Bool.eq_false_iff.2 fun h => Int.not_lt.2 hmin (compareInts_lt_iff.1 h)
  case nle =>
    calc compareElements .vpcmpud .nle 0xFFFFFFFF x = true
        ↔ u32 x < u32 0xFFFFFFFF := compareInts_nle_iff
      _ ↔ u32 x ≠ u32 0xFFFFFFFF := lt_iff_le_and_ne.trans (and_iff_right hmax)
      _ ↔ x ≠ 0xFFFFFFFF := not_congr u32_inj

end Sys2Proof.Machine
end

section
/-! SUPPORT. When an instruction completes and what it writes (40_vpcmpud.md R81, R85 to R87, R89; 41_vpcmpd.md R100 to
R103). -/

namespace Sys2Proof.Machine

/-! ### When an instruction completes (R89) -/

/-- A second source that can be read names no missing register. -/
theorem missing_src2_of_sourceReadable {s : State} {vl : VecLen} {o : OpEnA} (h : sourceReadable s vl o = true) :
    Src2.missing s.params o.src2 = none := by
  cases hs : o.src2 with
  | reg n =>
    rw [sourceReadable, hs] at h
    exact missingVReg_of_lt (of_decide_eq_true h)
  | mem a => rfl
  | bcst a => rfl

/-- An instruction is executable exactly when its checks pass and its second source goes on. -/
theorem executable_iff {s : State} {vl : VecLen} {o : OpEnA} : executable s vl o = true ↔
    usable s.params vl = true ∧ missingOperand s.params o = none ∧ ∃ c, secondSource s vl o = .next c := by
  rw [executable, Bool.and_eq_true, Bool.and_eq_true, decide_eq_true_eq, missingOperand_eq_none]
  constructor
  · rintro ⟨⟨hu, h1⟩, hr⟩
    have h2 := missing_src2_of_sourceReadable hr
    exact ⟨hu, ⟨h1, h2⟩, (secondSource_next_iff s vl o h2).2 hr⟩
  · rintro ⟨hu, ⟨h1, h2⟩, hc⟩
    exact ⟨⟨hu, h1⟩, (secondSource_next_iff s vl o h2).1 hc⟩

/-- An executable instruction completes with R81's state of its second source. -/
theorem comparePacked_of_executable {s : State} {vl : VecLen} {o : OpEnA} (h : executable s vl o = true) (op : CmpOp) :
    ∃ c, secondSource s vl o = .next c ∧ comparePacked op vl o s = .next (completeCompare s op vl o c) := by
  obtain ⟨hu, hm, c, hc⟩ := executable_iff.1 h
  exact ⟨c, hc, comparePacked_of_checks hu hm hc⟩

/-! ### What is compared (R17, R31, R59) -/

/-- A full memory operand has four bytes for each element (R5, R32). -/
theorem bytes_eq : ∀ vl : VecLen, vl.bytes = 4 * vl.kl
  | .v128 => rfl
  | .v256 => rfl
  | .v512 => rfl

/-- The second source's element below KL is the register's, the doubleword at `EA + 4j`, or the one at `EA`. -/
theorem secondSource_element {s : State} {vl : VecLen} {o : OpEnA} {c : Nat → Dword}
    (h : secondSource s vl o = .next c) {j : Nat} (hj : j < vl.kl) : c j = secondElement s vl o j := by
  rw [secondSource_value h, secondElement]
  cases o.src2 with
  | reg n => exact element_sourceReg s n hj
  | mem a => exact element_memRead s _ (by rw [bytes_eq]; omega)
  | bcst a => rfl

/-- The result mask bit by bit, on the elements as the instruction's own reading of them (R81). -/
theorem testBit_comparisonMask_elements {s : State} {vl : VecLen} {o : OpEnA} {c : Nat → Dword}
    (h : secondSource s vl o = .next c) (op : CmpOp) (j : Nat) :
    (comparisonMask s op vl o c).testBit j = (decide (j < vl.kl) && writemaskBit s o.mask j &&
      compareInts o.pred (elementValue op (firstElement s o j)) (elementValue op (secondElement s vl o j))) := by
  rw [testBit_comparisonMask, Bool.and_assoc]
  by_cases hj : j < vl.kl
  · rw [element_sourceReg s o.src1 hj, secondSource_element h hj]
    rfl
  · rw [decide_eq_false hj, Bool.false_and, Bool.false_and]

/-- Each form completes with R81's result, whenever it is executable. -/
theorem completesWith_elementValue (op : CmpOp) (vl : VecLen) :
    CompletesWith (Instr.of op vl) (elementValue op) vl := by
  intro o s hp he
  obtain ⟨c, hc, hnext⟩ := comparePacked_of_executable he op
  refine ⟨comparisonMask s op vl o c, ?_, testBit_comparisonMask_elements hc op⟩
  rw [exec_of, hnext, completeCompare_eq, comparisonMask_fits (of_decide_eq_true hp)]

/-! ### The destination after the instruction (R14, R85) -/

/-- The destination reads as the `MAX_KL` bits of the result. -/
theorem readK_completeCompare_dest (s : State) (op : CmpOp) (vl : VecLen) (o : OpEnA) (c : Nat → Dword) :
    readK (completeCompare s op vl o c) o.dest = opmaskBits s.params.maxKL (comparisonMask s op vl o c) := by
  have hk : (completeCompare s op vl o c).k[o.dest] = opmaskBits s.params.maxKL (comparisonMask s op vl o c) :=
    Vector.getElem_set_self ..
  rw [readK, hk]
  exact opmaskBits_opmaskBits ..

/-- An opmask register that is not the destination reads as before. -/
theorem readK_afterCompare_of_ne (s : State) {o : OpEnA} {n : KReg} (hn : n ≠ o.dest) (r : Nat) :
    readK (afterCompare s o r) n = readK s n :=
  congrArg (opmaskBits s.params.maxKL) (Vector.getElem_set_ne o.dest.isLt n.isLt fun h => hn (Fin.ext h.symm))

/-- Under a writemask the result is the unmasked one AND the writemask (R85). -/
theorem comparisonMask_mask_some (s : State) (op : CmpOp) (vl : VecLen) (o : OpEnA) (n : KReg) (c : Nat → Dword) :
    comparisonMask s op vl { o with mask := some n } c
      = comparisonMask s op vl { o with mask := none } c &&& readK s n := by
  refine Nat.eq_of_testBit_eq fun j => ?_
  rw [Nat.testBit_and, testBit_comparisonMask, testBit_comparisonMask, writemaskBit, writemaskBit, Bool.true_and,
    Bool.and_comm ((readK s n).testBit j), Bool.and_assoc]

/-- The `MAX_KL` bits of an AND. -/
theorem opmaskBits_and (w a b : Nat) : opmaskBits w (a &&& b) = opmaskBits w a &&& opmaskBits w b :=
  Nat.and_mod_two_pow

/-! ### One register as both sources (R87) -/

/-- Of two equal integers the predicates EQ, LE, NLT and TRUE hold and no other. -/
theorem compareInts_self (p : Predicate) (a : Int) :
    compareInts p a a = decide (p ∈ [Predicate.eq, .le, .nlt, .always]) := by
  cases p <;> simp [compareInts]

/-- LT, FALSE, NEQ and NLE are the predicates that do not hold of equal integers. -/
theorem not_mem_of_irreflexive {p : Predicate} (h : p ∈ [Predicate.lt, .never, .neq, .nle]) :
    p ∉ [Predicate.eq, .le, .nlt, .always] := by
  revert h
  cases p <;> decide

/-- The result of an instruction whose second source is its first. -/
theorem testBit_comparisonMask_self {s : State} {vl : VecLen} {o : OpEnA} {c : Nat → Dword}
    (hc : secondSource s vl o = .next c) (hs : o.src2 = .reg o.src1) (op : CmpOp) (j : Nat) :
    (comparisonMask s op vl o c).testBit j = (decide (j < vl.kl) && writemaskBit s o.mask j &&
      decide (o.pred ∈ [Predicate.eq, .le, .nlt, .always])) := by
  have hsame : secondElement s vl o j = firstElement s o j := by rw [secondElement, hs, firstElement]
  rw [testBit_comparisonMask_elements hc, hsame, compareInts_self]

/-! ### The statements -/

/-- Settles O23: the three forms of the one compare that reads elements as unsigned. -/
theorem vpcmpudWritesTheComparison : Obligations.VpcmpudWritesTheComparison := by
  unfold Obligations.VpcmpudWritesTheComparison
  exact ⟨completesWith_elementValue .vpcmpud .v128, completesWith_elementValue .vpcmpud .v256,
    completesWith_elementValue .vpcmpud .v512⟩

/-- Settles O24: the three forms of the one compare that reads elements as signed. -/
theorem vpcmpdWritesTheComparison : Obligations.VpcmpdWritesTheComparison := by
  unfold Obligations.VpcmpdWritesTheComparison
  exact ⟨completesWith_elementValue .vpcmpd .v128, completesWith_elementValue .vpcmpd .v256,
    completesWith_elementValue .vpcmpd .v512⟩

/-- Settles O25: both say that the checks pass and the second source goes on. -/
theorem completesExactlyWhenExecutable : Obligations.CompletesExactlyWhenExecutable := by
  unfold Obligations.CompletesExactlyWhenExecutable
  intro i s
  rw [exec_eq]
  constructor
  · rintro ⟨t, h⟩
    obtain ⟨hu, hm, c, hc, -⟩ := comparePacked_next h
    exact executable_iff.2 ⟨hu, hm, c, hc⟩
  · intro h
    obtain ⟨c, -, hnext⟩ := comparePacked_of_executable h i.op
    exact ⟨_, hnext⟩

/-- Settles O26: the next state is the old one with the destination and `pc` replaced. -/
theorem frameOfEveryForm : Obligations.FrameOfEveryForm := by
  unfold Obligations.FrameOfEveryForm
  intro i s t h
  obtain ⟨r, -, rfl⟩ := exec_next h
  exact ⟨fun _ => rfl, rfl, fun _ => rfl, fun n hn => readK_afterCompare_of_ne s hn r, rfl, rfl, fun _ => rfl, rfl, rfl⟩

/-- Settles O29: the second source does not depend on the writemask, which enters each bit of the result by AND. -/
theorem writemaskAndsTheResult : Obligations.WritemaskAndsTheResult := by
  unfold Obligations.WritemaskAndsTheResult
  intro op vl o n s t u ht hu
  obtain ⟨c, hc, rfl⟩ := exec_of_next ht
  obtain ⟨d, hd, rfl⟩ := exec_of_next hu
  obtain rfl : c = d := Host.Outcome.next.inj (hc.symm.trans hd)
  have hmask : opmaskBits s.params.maxKL (readK s n) = readK s n := opmaskBits_opmaskBits ..
  calc readK (completeCompare s op vl { o with mask := some n } c) o.dest
      = opmaskBits s.params.maxKL (comparisonMask s op vl { o with mask := some n } c) :=
        readK_completeCompare_dest ..
    _ = opmaskBits s.params.maxKL (comparisonMask s op vl { o with mask := none } c) &&& readK s n := by
        rw [comparisonMask_mask_some, opmaskBits_and, hmask]
    _ = readK (completeCompare s op vl { o with mask := none } c) o.dest &&& readK s n :=
        congrArg (· &&& readK s n) (readK_completeCompare_dest s op vl { o with mask := none } c).symm

/-- Settles O34: every element is compared with itself, so the predicate alone decides. -/
theorem selfComparison : Obligations.SelfComparison := by
  unfold Obligations.SelfComparison
  intro i s t hp hs h
  rw [exec_eq] at h
  obtain ⟨-, -, c, hc, rfl⟩ := comparePacked_next h
  rw [readK_completeCompare_dest, comparisonMask_fits (of_decide_eq_true hp)]
  have hbit := testBit_comparisonMask_self hc hs i.op
  constructor
  · intro hpred j
    rw [hbit, decide_eq_true hpred, Bool.and_true]
  · intro hpred
    have hnot := not_mem_of_irreflexive hpred
    exact Nat.eq_of_testBit_eq fun j => by rw [hbit, decide_eq_false hnot, Bool.and_false, Nat.zero_testBit]

end Sys2Proof.Machine
end

section
/-! SUPPORT. The step: fetching, decoding and executing one instruction, and an instruction placed where the step fetches
(40_vpcmpud.md R86, R89; log entry 24). -/

namespace Sys2Proof

/-- The bytes of an instruction decode to it alone, without the bytes that follow. -/
theorem decode_take {reserved : ReservedImm8} {bs rest : List Byte} {i : Instr}
    (h : decode reserved bs = .ok (i, rest)) : decode reserved (bs.take i.length) = .ok (i, []) := by
  obtain ⟨-, hlen⟩ := decode_length h
  obtain ⟨op, vl, f, hf, hi, rfl⟩ := decode_eq_ok_iff.1 h
  rw [List.length_append, Nat.add_right_cancel_iff] at hlen
  rw [List.take_left' hlen]
  exact decode_eq_ok_iff.2 ⟨op, vl, f, hf, hi, (List.append_nil _).symm⟩

/-- The bytes of a table word, the least significant first. -/
def tableWordBytes (nbits w : Nat) : List Byte :=
  (List.range 12).map fun i => (tableWordBits nbits w).extractLsb' (8 * i) 8

/-- A table word's instruction is what the decoder reads from its bytes. -/
theorem decodeTableWord_eq_some {nbits w : Nat} {i : Instr} (h : decodeTableWord nbits w = some i) :
    ∃ rest, decode .refuse (tableWordBytes nbits w) = .ok (i, rest) := by
  unfold decodeTableWord at h
  split at h
  next j rest hd =>
    cases h
    exact ⟨rest, hd⟩
  · cases h

end Sys2Proof

namespace Sys2Proof.Machine

/-! ### Decoding fetched bytes (R89) -/

theorem decodeFetched_of_ok {s : State} {bs rest : List Byte} {i : Instr}
    (h : decode s.params.reservedImm8 bs = .ok (i, rest)) : decodeFetched s bs = .next i := by
  simp only [decodeFetched, h]

theorem decodeFetched_of_error {s : State} {bs : List Byte} {why : DecodeRefusal}
    (h : decode s.params.reservedImm8 bs = .error why) : decodeFetched s bs = .refused (.undecodable why) := by
  simp only [decodeFetched, h]

/-- A step whose fetch faults ends in that fault. -/
theorem step_of_fetchBytes_fault {s : State} {f : Fault} (h : fetchBytes s = .fault f) : step s = .fault f := by
  rw [step, fetchInstr, h, thenDo_fault, thenDo_fault]

/-! ### The statements about fetching -/

/-- Settles O44: the fetch passes, and the decoder's instruction is executed. -/
theorem stepRunsTheDecodedInstruction : Obligations.StepRunsTheDecodedInstruction := by
  unfold Obligations.StepRunsTheDecodedInstruction
  intro s i rest hacc hdec
  rw [step_of_accessible hacc, decodeFetched_of_ok hdec, thenDo_next]

/-- Settles O46: the two ways a fetch faults, and the decoder's refusal after a fetch that passes. -/
theorem fetchFaultsBeforeDecoding : Obligations.FetchFaultsBeforeDecoding := by
  unfold Obligations.FetchFaultsBeforeDecoding
  intro s
  refine ⟨fun h7 => step_of_fetchBytes_fault ?first, fun h7 hlen => step_of_fetchBytes_fault ?whole,
    fun why hacc hdec => ?refused⟩
  case first =>
    rcases fetchBytes_cases s with ⟨-, hf⟩ | ⟨h, -, -⟩ | ⟨h, -, -⟩
    · exact hf
    · cases h7.symm.trans h
    · cases h7.symm.trans h
  case whole =>
    rcases fetchBytes_cases s with ⟨h, -⟩ | ⟨-, -, hf⟩ | ⟨-, h, -⟩
    · cases h7.symm.trans h
    · exact hf
    · cases hlen.symm.trans h
  case refused => rw [step_of_accessible hacc, decodeFetched_of_error hdec, thenDo_refused]

/-! ### An instruction placed at `pc` (log entry 24) -/

/-- A shorter read of bytes is the first of a longer one. -/
theorem take_readBytes (s : State) (a : Word) {m n : Nat} (h : m ≤ n) :
    (readBytes s a n).take m = readBytes s a m := by
  obtain ⟨k, rfl⟩ := Nat.exists_eq_add_of_le h
  rw [readBytes_add, List.take_left' (readBytes_length s m a)]

/-- Where accessible bytes at `pc`, the instruction's and any that follow it, decode to it, the step runs it. -/
theorem step_of_decode_readBytes {s : State} {n : Nat} {i : Instr} {rest : List Byte}
    (hacc : accessible s.params s.pc n = true)
    (hdec : decode s.params.reservedImm8 (readBytes s s.pc n) = .ok (i, rest)) : step s = exec i s := by
  obtain ⟨hlen, hcount⟩ := decode_length hdec
  rw [readBytes_length] at hcount
  have h7 : 7 ≤ i.length := Nat.le_add_right 7 _
  have hle : i.length ≤ n := by omega
  have hpc : lengthAtPc s = i.length := (lengthAtPc_eq s (h7.trans hle)).trans hlen.symm
  have htake := decode_take hdec
  rw [take_readBytes s s.pc hle, ← hpc] at htake
  exact stepRunsTheDecodedInstruction s i [] (accessible_mono (hpc ▸ hle) hacc) htake

/-- Byte `i` of a little-endian read (R30). -/
theorem extractLsb'_memRead (s : State) (a : Word) {n i : Nat} (hi : i < n) :
    (memRead s a n).extractLsb' (8 * i) 8 = readByte s (a + BitVec.ofNat 64 i) := by
  refine BitVec.eq_of_getLsbD_eq fun b hb => ?_
  rw [BitVec.getLsbD_extractLsb', decide_eq_true hb, Bool.true_and, memRead_getLsbD s hb n a i hi]

/-- The fetched bytes are those of the little-endian read (R30). -/
theorem readBytes_eq_map_memRead (s : State) (a : Word) (n : Nat) :
    readBytes s a n = (List.range n).map fun i => (memRead s a n).extractLsb' (8 * i) 8 := by
  refine List.ext_getElem? fun i => ?_
  by_cases hi : i < n
  · rw [readBytes_getElem? s n a i hi, List.getElem?_map, List.getElem?_range hi, Option.map_some,
      extractLsb'_memRead s a hi]
  · rw [List.getElem?_eq_none (by simpa using hi), List.getElem?_eq_none (by simpa using hi)]

/-- The 12 bytes at `pc` after placing a table word are the word's. -/
theorem readBytes_withFetchWord {s : State} (hm : Memory.wf s.mem = true) (nbits w : Nat) :
    readBytes (s.withFetchWord nbits w) s.pc 12 = tableWordBytes nbits w := by
  have hread : memRead (s.withFetchWord nbits w) s.pc 12 = tableWordBits nbits w :=
    calc memRead (s.withFetchWord nbits w) s.pc 12
        = memRead (memWrite s s.pc 12 (tableWordBits nbits w).toNat) s.pc 12 := memRead_congr _ _ fun _ _ => rfl
      _ = BitVec.ofNat 96 (tableWordBits nbits w).toNat := memRead_memWrite_same 12 s.pc _ hm (by decide)
      _ = tableWordBits nbits w := (BitVec.ofNat_toNat ..).trans (BitVec.setWidth_eq _)
  rw [readBytes_eq_map_memRead, hread, tableWordBytes]

/-- Placing a table word makes its bytes accessible and keeps `pc` and `RESERVED_IMM8`. -/
theorem withFetchWord_fetch (s : State) (nbits w : Nat) : (s.withFetchWord nbits w).pc = s.pc ∧
    (s.withFetchWord nbits w).params.reservedImm8 = s.params.reservedImm8 ∧
    accessible (s.withFetchWord nbits w).params s.pc 12 = true := by
  rw [State.withFetchWord, placeAtPc_eq]
  refine ⟨rfl, ?_, accessible_makeAccessible (by decide)⟩
  rw [makeAccessible_frame]

/-- Settles O48: the word's 12 bytes stand at `pc`, accessible, and decode to the instruction. -/
theorem placedInstructionRunsNext : Obligations.PlacedInstructionRunsNext := by
  unfold Obligations.PlacedInstructionRunsNext
  intro s nbits w i hm hres hw
  obtain ⟨rest, hdec⟩ := decodeTableWord_eq_some hw
  obtain ⟨hpc, hres', hacc⟩ := withFetchWord_fetch s nbits w
  refine step_of_decode_readBytes (n := 12) (rest := rest) (hpc.symm ▸ hacc) ?_
  rw [hpc, hres', hres, readBytes_withFetchWord hm, hdec]

/-! ### What a step changes (R86) -/

/-- What a completing instruction writes has no bit from 16 up (R5, R81). -/
theorem exec_next_lt {i : Instr} {s t : State} (h : exec i s = .next t) :
    ∃ r, r < 2 ^ 16 ∧ t = afterCompare s i.operands r := by
  rw [exec_eq] at h
  obtain ⟨-, -, c, -, ht⟩ := comparePacked_next h
  exact ⟨_, Nat.lt_of_le_of_lt (Nat.mod_le _ _) (comparisonMask_lt s i.op i.vl i.operands c), ht⟩

/-- Settles O49: a step is one decoded instruction, whose length the length rule gives. -/
theorem stepChangesOneOpmaskAndPc : Obligations.StepChangesOneOpmaskAndPc := by
  unfold Obligations.StepChangesOneOpmaskAndPc
  intro s t h
  obtain ⟨i, rest, -, hdec, he⟩ := step_next h
  obtain ⟨r, hr, rfl⟩ := exec_next_lt he
  have hlen : i.length ∈ [7, 8, 9, 11, 12] := (decode_length hdec).1 ▸ fetchLength_mem _ _
  exact ⟨i.operands.dest, r, i.length, hlen, rfl, hr⟩

end Sys2Proof.Machine
end

section
/-! SUPPORT. The signed reading of elements and where it agrees with the unsigned one (41_vpcmpd.md R100). -/

namespace Sys2Proof.Machine

/-! ### The signed value (R100) -/

theorem s32_of_bit31_clear {v : Dword} (h : v.getLsbD 31 = false) : s32 v = u32 v :=
  if_neg (Bool.eq_false_iff.1 h)

theorem s32_of_bit31_set {v : Dword} (h : v.getLsbD 31 = true) : s32 v = u32 v - 2 ^ 32 := if_pos h

theorem neg_two_pow_le_s32 (v : Dword) : -2 ^ 31 ≤ s32 v := s32_eq_toInt v ▸ v.le_toInt

theorem s32_lt_two_pow (v : Dword) : s32 v < 2 ^ 31 := s32_eq_toInt v ▸ v.toInt_lt

theorem s32_inj {x y : Dword} : s32 x = s32 y ↔ x = y := by
  rw [s32_eq_toInt, s32_eq_toInt, BitVec.toInt_inj]

/-- Either reading tells different elements apart. -/
theorem elementValue_inj {x y : Dword} : ∀ op : CmpOp, elementValue op x = elementValue op y ↔ x = y
  | .vpcmpud => u32_inj
  | .vpcmpd => s32_inj

/-! ### The order of elements (R80) -/

theorem compareElements_vpcmpud_lt (a c : Dword) : compareElements .vpcmpud .lt a c = a.ult c := by
  rw [BitVec.ult_eq_decide]
  exact decide_eq_decide.2 Int.ofNat_lt

theorem compareElements_vpcmpd_lt (a c : Dword) : compareElements .vpcmpd .lt a c = a.slt c := by
  rw [BitVec.slt_eq_decide, ← s32_eq_toInt, ← s32_eq_toInt]
  rfl

theorem compareElements_nlt (op : CmpOp) (a c : Dword) :
    compareElements op .nlt a c = !compareElements op .lt a c := rfl

theorem compareElements_le (op : CmpOp) (a c : Dword) : compareElements op .le a c = !compareElements op .lt c a :=
  (decide_eq_decide.2 not_lt.symm).trans decide_not

theorem compareElements_nle (op : CmpOp) (a c : Dword) : compareElements op .nle a c = compareElements op .lt c a := by
  calc compareElements op .nle a c = !compareElements op .le a c := rfl
    _ = compareElements op .lt c a := by rw [compareElements_le, Bool.not_not]

/-- The signed order is the unsigned one, reversed where bits 31 differ (R100). -/
theorem signed_lt_eq_unsigned_lt (a c : Dword) : compareElements .vpcmpd .lt a c =
    ((a.getLsbD 31 != c.getLsbD 31) ^^ compareElements .vpcmpud .lt a c) := by
  rw [compareElements_vpcmpd_lt, compareElements_vpcmpud_lt, BitVec.slt_eq_ult, BitVec.msb_eq_getLsbD_last,
    BitVec.msb_eq_getLsbD_last]

/-- Each predicate that orders is LT of the elements or of the elements exchanged, negated or not, so bits 31 that
differ negate it too. -/
theorem signed_eq_unsigned_of_order {p : Predicate} (hp : p ∈ [Predicate.lt, .le, .nlt, .nle]) (a c : Dword) :
    compareElements .vpcmpd p a c = ((a.getLsbD 31 != c.getLsbD 31) ^^ compareElements .vpcmpud p a c) := by
  have hlt := signed_lt_eq_unsigned_lt a c
  have hgt := signed_lt_eq_unsigned_lt c a
  rw [bne_comm] at hgt
  simp only [List.mem_cons, List.not_mem_nil, or_false] at hp
  rcases hp with rfl | rfl | rfl | rfl
  case inl => exact hlt
  case inr.inl => rw [compareElements_le, compareElements_le, hgt, Bool.xor_not]
  case inr.inr.inl => rw [compareElements_nlt, compareElements_nlt, hlt, Bool.xor_not]
  case inr.inr.inr => rw [compareElements_nle, compareElements_nle, hgt]

/-- Only a true bit changes what it is XORed to. -/
theorem xor_ne_right_iff (b r : Bool) : (b ^^ r) ≠ r ↔ b = true := by
  cases b <;> cases r <;> decide

/-- EQ, NEQ, FALSE and TRUE do not depend on how elements are read (R100). -/
theorem compareElements_of_equality {p : Predicate} (hp : p ∈ [Predicate.eq, .neq, .never, .always])
    (op op' : CmpOp) (a c : Dword) : compareElements op p a c = compareElements op' p a c := by
  have heq : compareElements op .eq a c = compareElements op' .eq a c :=
    decide_eq_decide.2 ((elementValue_inj op).trans (elementValue_inj op').symm)
  simp only [List.mem_cons, List.not_mem_nil, or_false] at hp
  rcases hp with rfl | rfl | rfl | rfl
  case inl => exact heq
  case inr.inl => exact congrArg (!·) heq
  case inr.inr.inl => rfl
  case inr.inr.inr => rfl

/-! ### What an instruction owes to its mnemonic (R81, R100) -/

/-- Mnemonics on which the predicate gives the same for all elements are the same operation, stops included: only the
result's bits depend on the mnemonic. -/
theorem comparePacked_congr_op {op op' : CmpOp} {o : OpEnA}
    (h : ∀ a c, compareElements op o.pred a c = compareElements op' o.pred a c) (vl : VecLen) (s : State) :
    comparePacked op vl o s = comparePacked op' vl o s := by
  have hmask (c : Nat → Dword) : comparisonMask s op vl o c = comparisonMask s op' vl o c :=
    maskOf_congr fun j _ => by rw [h]
  have hnext : completeCompare s op vl o = completeCompare s op' vl o :=
    funext fun c => by rw [completeCompare_eq, completeCompare_eq, hmask]
  rw [comparePacked, comparePacked, hnext]

/-! ### The statements -/

/-- Settles O21: the signed value is `BitVec`'s, which lies from -2^31 to 2^31 - 1. -/
theorem signedReading : Obligations.SignedReading := by
  unfold Obligations.SignedReading
  have hleast : s32 0x80000000 = -2 ^ 31 := by decide
  have hgreatest : s32 0x7FFFFFFF = 2 ^ 31 - 1 := by decide
  refine ⟨fun v => ⟨s32_eq_toInt v, s32_of_bit31_clear, s32_of_bit31_set⟩, fun v => ⟨?least, ?greatest⟩, hleast,
    hgreatest, by decide⟩
  case least => exact hleast ▸ neg_two_pow_le_s32 v
  case greatest => exact hgreatest ▸ Int.le_sub_one_of_lt (s32_lt_two_pow v)

/-- Settles O22: bits 31 that differ negate each predicate that orders, and equality needs no order. -/
theorem signednessMattersOnlyOnBit31 : Obligations.SignednessMattersOnlyOnBit31 := by
  unfold Obligations.SignednessMattersOnlyOnBit31
  intro a c
  refine ⟨fun p hp => ?order, fun p hp => compareElements_of_equality hp .vpcmpd .vpcmpud a c⟩
  case order => rw [signed_eq_unsigned_of_order hp, xor_ne_right_iff, bne_iff_ne]

/-- Settles O35: the two forms of one length are one operation on mnemonics that give the same on these predicates. -/
theorem signedAndUnsignedAgreeOnEquality : Obligations.SignedAndUnsignedAgreeOnEquality := by
  unfold Obligations.SignedAndUnsignedAgreeOnEquality
  intro o s hp
  have hsame := comparePacked_congr_op (compareElements_of_equality hp .vpcmpd .vpcmpud)
  exact ⟨hsame .v128 s, hsame .v256 s, hsame .v512 s⟩

end Sys2Proof.Machine
end

section
/-! SUPPORT. What a fault says (60_exceptions.md R110 to R118): the conditions under which an instruction and a step fault,
and the `pc` and the access that the fault names. -/

namespace Sys2Proof.Machine

/-! ### The `UD` checks (R111, R112) -/

/-- The form's feature condition in the words of R112. -/
theorem hasFeatures_iff (p : Params) : ∀ vl : VecLen, hasFeatures p vl = true ↔
    if vl = .v512 then p.hasAvx512f = true ∨ p.hasAvx10_1 = true
    else (p.hasAvx512vl = true ∧ p.hasAvx512f = true) ∨ p.hasAvx10_1 = true
  | .v128 => by simp [hasFeatures]
  | .v256 => by simp [hasFeatures]
  | .v512 => by simp [hasFeatures]

/-- An instruction that fails the `UD` checks ends in UD, whatever its operands (R117). -/
theorem exec_of_not_usable {i : Instr} {s : State} (h : usable s.params i.vl = false) :
    exec i s = .fault (.ud s.pc) := by
  rw [exec_eq]
  rcases comparePacked_cases i.op i.vl i.operands s with ⟨-, he⟩ | ⟨hu, -⟩ | ⟨hu, -⟩
  · exact he
  · cases h.symm.trans hu
  · cases h.symm.trans hu

/-! ### Everything that faults -/

/-- A chained operation faults in its first part or in its second. -/
theorem thenDo_eq_fault {α β : Type} {r : Result α} {f : α → Result β} {x : Fault} (h : r.thenDo f = .fault x) :
    r = .fault x ∨ ∃ a, r = .next a ∧ f a = .fault x := by
  cases r with
  | next a => exact .inr ⟨a, rfl, h⟩
  | fault y => cases h; exact .inl rfl
  | refused y => cases h

/-- The only fault of a read of bytes is MemFault of those bytes (R34). -/
theorem loadBytes_fault {s : State} {ea : Word} {n : Nat} {f : Fault} (h : loadBytes s ea n = .fault f) :
    f = .memFault ea n s.pc ∧ accessible s.params ea n = false := by
  rcases loadBytes_cases s ea n with ⟨-, hl⟩ | ⟨ha, hl⟩ <;> rw [hl] at h
  · cases h
  · cases h
    exact ⟨rfl, ha⟩

/-- A second source that faults is a misaligned broadcast under `AC_CHECK`, or a memory operand that is not accessible;
the fault names the operand's address and size (R34, R38, R114, R115). -/
theorem secondSource_fault {s : State} {vl : VecLen} {o : OpEnA} {f : Fault} (h : secondSource s vl o = .fault f) :
    ∃ a, (f = .ac s.pc ∧ o.src2 = .bcst a ∧ s.params.acCheck = true ∧ (operandAddress s vl o a).toNat % 4 ≠ 0) ∨
      ((o.src2 = .mem a ∨ o.src2 = .bcst a) ∧
        f = .memFault (operandAddress s vl o a) (operandBytes vl o.src2) s.pc ∧
        accessible s.params (operandAddress s vl o a) (operandBytes vl o.src2) = false) := by
  cases hs : o.src2 with
  | reg n =>
    simp only [secondSource, hs] at h
    cases h
  | mem a =>
    simp only [secondSource, hs] at h
    rcases thenDo_eq_fault h with hl | ⟨v, -, hv⟩
    · exact ⟨a, .inr ⟨.inl rfl, loadBytes_fault hl⟩⟩
    · cases hv
  | bcst a =>
    simp only [secondSource, hs] at h
    rcases thenDo_eq_fault h with hl | ⟨e, -, he⟩
    · rcases loadBroadcast_cases s (operandAddress s vl o a) with ⟨⟨hc, ha⟩, hb⟩ | ⟨-, hb⟩ <;> rw [hb] at hl
      · cases hl
        exact ⟨a, .inl ⟨rfl, rfl, hc, ha⟩⟩
      · exact ⟨a, .inr ⟨.inr rfl, loadBytes_fault hl⟩⟩
    · cases he

/-- An instruction faults with UD where its checks fail, and otherwise as its second source does (R117). -/
theorem exec_fault {i : Instr} {s : State} {f : Fault} (h : exec i s = .fault f) :
    (f = .ud s.pc ∧ usable s.params i.vl = false) ∨ secondSource s i.vl i.operands = .fault f := by
  rw [exec_eq] at h
  rcases comparePacked_cases i.op i.vl i.operands s with ⟨hu, he⟩ | ⟨-, n, -, he⟩ | ⟨-, -, he⟩ <;> rw [he] at h
  · cases h
    exact .inl ⟨rfl, hu⟩
  · cases h
  · rcases thenDo_eq_fault h with hs | ⟨c, -, hc⟩
    · exact .inr hs
    · cases hc

/-- An instruction ends in UD exactly where its checks fail (R111, R112). -/
theorem exec_ud_iff {i : Instr} {s : State} : exec i s = .fault (.ud s.pc) ↔ usable s.params i.vl = false := by
  refine ⟨fun h => ?_, exec_of_not_usable⟩
  rcases exec_fault h with ⟨-, hu⟩ | hs
  · exact hu
  · obtain ⟨a, ⟨hf, -⟩ | ⟨-, hf, -⟩⟩ := secondSource_fault hs
    · cases hf
    · cases hf

/-- A step faults in its fetch, of the first 7 bytes or of the length rule's (log entries 12 and 13), or in the
instruction that the fetched bytes decode to (R89). -/
theorem step_fault {s : State} {f : Fault} (h : step s = .fault f) :
    (f = .memFault s.pc 7 s.pc ∧ accessible s.params s.pc 7 = false) ∨
    (f = .memFault s.pc (lengthAtPc s) s.pc ∧ accessible s.params s.pc (lengthAtPc s) = false) ∨
    ∃ i rest, decode s.params.reservedImm8 (readBytes s s.pc (lengthAtPc s)) = .ok (i, rest) ∧ exec i s = .fault f := by
  rcases fetchBytes_cases s with ⟨h7, hf⟩ | ⟨-, hn, hf⟩ | ⟨-, hacc, -⟩
  · rw [step_of_fetchBytes_fault hf] at h
    cases h
    exact .inl ⟨rfl, h7⟩
  · rw [step_of_fetchBytes_fault hf] at h
    cases h
    exact .inr (.inl ⟨rfl, hn⟩)
  · rw [step_of_accessible hacc] at h
    rcases decodeFetched_cases s (readBytes s s.pc (lengthAtPc s)) with ⟨why, -, hr⟩ | ⟨i, rest, hd, hr⟩ <;>
      rw [hr] at h
    · cases h
    · exact .inr (.inr ⟨i, rest, hd, h⟩)

/-! ### The statements -/

/-- Settles O37: a state that is not enabled fails the `UD` checks of every form. -/
theorem disabledStateRaisesUD : Obligations.DisabledStateRaisesUD := by
  unfold Obligations.DisabledStateRaisesUD
  intro i s he
  exact exec_of_not_usable (by rw [usable, he, Bool.false_and])

/-- Settles O38: the condition of R112 is the one that the `UD` checks ask for, and UD has no other cause. -/
theorem missingFeaturesRaiseUD : Obligations.MissingFeaturesRaiseUD := by
  unfold Obligations.MissingFeaturesRaiseUD
  intro i s cond
  have hcond : hasFeatures s.params i.vl = true ↔ cond := hasFeatures_iff s.params i.vl
  constructor
  · intro hn
    have hf : hasFeatures s.params i.vl = false := Bool.eq_false_iff.2 (mt hcond.1 hn)
    exact exec_of_not_usable (by rw [usable, hf, Bool.and_false])
  · intro hc he hud
    cases (exec_ud_iff.1 hud).symm.trans (usable_of_enabled he (hcond.2 hc))

/-- Settles O40: AC is not the fault of the `UD` checks, and of the second source's faults only the misaligned
broadcast's. -/
theorem alignmentCheckOnlyOnBroadcast : Obligations.AlignmentCheckOnlyOnBroadcast := by
  unfold Obligations.AlignmentCheckOnlyOnBroadcast
  intro i s pc h
  rcases exec_fault h with ⟨hf, -⟩ | hs
  · cases hf
  · obtain ⟨a, ⟨-, hb, hc, ha⟩ | ⟨-, hf, -⟩⟩ := secondSource_fault hs
    · exact ⟨hc, a, hb, ha⟩
    · cases hf

/-- Settles O42: the faults of the fetch, of the `UD` checks and of the second source are all there are. -/
theorem faultsNameTheirPcAndAccess : Obligations.FaultsNameTheirPcAndAccess := by
  unfold Obligations.FaultsNameTheirPcAndAccess
  intro s f h
  rcases step_fault h with hfirst | hwhole | ⟨i, rest, hdec, hexec⟩
  · exact .inl hfirst
  · exact .inr (.inl hwhole)
  · refine .inr (.inr ⟨i, rest, hdec, ?_⟩)
    rcases exec_fault hexec with ⟨hud, -⟩ | hs
    · exact .inl hud
    · obtain ⟨a, ⟨hac, hb, -⟩ | hmem⟩ := secondSource_fault hs
      · exact .inr (.inl ⟨hac, a, hb⟩)
      · exact .inr (.inr ⟨a, hmem⟩)

end Sys2Proof.Machine
end

section
/-! SUPPORT. Straight-line programs (70_reset_and_hazards.md R132, R133): encodings back to back in memory, a run that
completes a list of instructions one a step, and how such a run is made of its first instruction and the rest. -/

namespace Sys2Proof.Machine

/-! ### Programs in memory (R132) -/

/-- The encoding of a well-formed instruction has the instruction's length (R64). -/
theorem length_encode {i : Instr} (hi : i.wf = true) : (encode i).length = i.length := by
  have hdec := decodeEncodeRoundTrip .refuse i [] hi
  simpa using (decode_length hdec).2

/-- A program stands at `a` when its first part does and the rest follows it. -/
theorem programPlaced_append {s : State} {a : Word} {bs cs : List Byte} :
    programPlaced s a (bs ++ cs) = true ↔
      programPlaced s a bs = true ∧ programPlaced s (a + BitVec.ofNat 64 bs.length) cs = true := by
  have hbytes : readBytes s a (bs.length + cs.length) = bs ++ cs ↔
      readBytes s a bs.length = bs ∧ readBytes s (a + BitVec.ofNat 64 bs.length) cs.length = cs := by
    rw [readBytes_add]
    exact List.append_eq_append_iff_of_size_eq_left (readBytes_length s _ a)
  simp only [programPlaced, List.length_append, accessible_add, Bool.and_eq_true, beq_iff_eq, hbytes, and_and_and_comm]

/-- A completing instruction leaves every program where it stands: memory and `Accessible` are as before. -/
theorem programPlaced_afterCompare (s : State) (o : OpEnA) (r : Nat) (a : Word) (bs : List Byte) :
    programPlaced (afterCompare s o r) a bs = programPlaced s a bs := by
  have hbytes : readBytes (afterCompare s o r) a bs.length = readBytes s a bs.length :=
    readBytes_congr _ _ fun _ _ => rfl
  rw [programPlaced, programPlaced, hbytes, afterCompare_params]

/-- Where an instruction's encoding stands at `pc`, the step runs it: the fetch and the decoder pass (R89). -/
theorem step_of_programPlaced {s : State} {i : Instr} (hi : i.wf = true)
    (h : programPlaced s s.pc (encode i) = true) : step s = exec i s := by
  rw [programPlaced, length_encode hi, Bool.and_eq_true, beq_iff_eq] at h
  exact encodedInstructionAtPcRuns s i hi h.1 h.2

/-! ### Runs that complete a list of instructions (R133) -/

/-- One step for each of `is` leads from `s` to `t`, at the end of their encodings; nothing but opmask registers and
`pc` has changed. -/
def RunCompletes (is : List Instr) (s t : State) : Prop :=
  runSteps is.length s = .next t ∧ atEnd t s.pc (is.flatMap encode).length = true ∧
    t = { s with k := t.k, pc := t.pc }

theorem runCompletes_nil (s : State) : RunCompletes [] s s := ⟨rfl, by simp [atEnd], rfl⟩

/-- A run that completes `is` after `i` completed is one of `i :: is`. -/
theorem RunCompletes.cons {i : Instr} {is : List Instr} {s u t : State} (hi : i.wf = true) (hstep : step s = exec i s)
    (hexec : exec i s = .next u) (h : RunCompletes is u t) : RunCompletes (i :: is) s t := by
  obtain ⟨hrun, hend, hframe⟩ := h
  obtain ⟨r, -, rfl⟩ := exec_next_lt hexec
  refine ⟨?run, ?atEnd, hframe⟩
  case run => rw [List.length_cons, runSteps, hstep, hexec, thenDo_next, hrun]
  case atEnd =>
    simp only [atEnd, beq_iff_eq, afterCompare_pc] at hend ⊢
    rw [hend, List.flatMap_cons, List.length_append, length_encode hi, Instr.length, BitVec.ofNat_add,
      BitVec.add_assoc]

/-- Some of `is` complete, and the whole run ends as the next one stops. -/
def RunStops (is : List Instr) (s : State) : Prop :=
  ∃ before i after t, is = before ++ i :: after ∧ RunCompletes before s t ∧
    runSteps is.length s = exec i t ∧ ∀ u, exec i t ≠ .next u

/-- A run whose first instruction stops ends as that one does. -/
theorem runStops_of_first {i : Instr} {is : List Instr} {s : State} (hstep : step s = exec i s)
    (hstop : ∀ u, exec i s ≠ .next u) : RunStops (i :: is) s := by
  refine ⟨[], i, is, s, rfl, runCompletes_nil s, ?run, hstop⟩
  rw [List.length_cons, runSteps, hstep]
  cases he : exec i s with
  | next u => exact absurd he (hstop u)
  | fault x => rfl
  | refused x => rfl

/-- A run that stops in `is` after `i` completed is one of `i :: is`. -/
theorem RunStops.cons {i : Instr} {is : List Instr} {s u : State} (hi : i.wf = true) (hstep : step s = exec i s)
    (hexec : exec i s = .next u) (h : RunStops is u) : RunStops (i :: is) s := by
  obtain ⟨before, j, after, t, rfl, hbefore, hrun, hstop⟩ := h
  refine ⟨i :: before, j, after, t, rfl, hbefore.cons hi hstep hexec, ?_, hstop⟩
  rw [List.length_cons, runSteps, hstep, hexec, thenDo_next, hrun]

/-- A placed straight line completes or stops: by induction on the instructions, the first of which completes into a
state where the rest stand at `pc`, or stops. -/
theorem runCompletes_or_runStops : ∀ (is : List Instr) (s : State), (∀ i ∈ is, i.wf = true) →
    programPlaced s s.pc (is.flatMap encode) = true → (∃ t, RunCompletes is s t) ∨ RunStops is s
  | [], s, _, _ => .inl ⟨s, runCompletes_nil s⟩
  | i :: is, s, hwf, hplaced => by
    obtain ⟨hi, his⟩ := List.forall_mem_cons.1 hwf
    obtain ⟨hfirst, hrest⟩ := programPlaced_append.1 (List.flatMap_cons ▸ hplaced)
    have hstep : step s = exec i s := step_of_programPlaced hi hfirst
    by_cases hstop : ∀ u, exec i s ≠ .next u
    · exact .inr (runStops_of_first hstep hstop)
    · obtain ⟨u, hexec⟩ := not_forall_not.1 hstop
      have hplaced' : programPlaced u u.pc (is.flatMap encode) = true := by
        obtain ⟨r, -, rfl⟩ := exec_next_lt hexec
        rw [programPlaced_afterCompare, afterCompare_pc]
        rwa [length_encode hi] at hrest
      rcases runCompletes_or_runStops is u his hplaced' with ⟨t, ht⟩ | hs
      · exact .inl ⟨t, ht.cons hi hstep hexec⟩
      · exact .inr (hs.cons hi hstep hexec)

/-! ### The statement -/

/-- Settles O51: the two outcomes of a placed straight line, written out. -/
theorem straightLineRunEndsOrStops : Obligations.StraightLineRunEndsOrStops := by
  unfold Obligations.StraightLineRunEndsOrStops
  intro is s hwf hplaced
  refine (runCompletes_or_runStops is s hwf hplaced).imp_right ?_
  rintro ⟨before, i, after, t, his, ⟨hrun, hend, hframe⟩, hwhole, hstop⟩
  exact ⟨before, i, after, t, his, hrun, hend, hframe, hwhole, hstop⟩

end Sys2Proof.Machine
end

section
/-! SUPPORT. What each read answers in the reset state (10_state.md R23, 00_scope.md R6). -/

namespace Sys2Proof.Machine

/-! ### Registers -/

@[simp] theorem readZmm_reset (n : VReg) : readZmm State.reset n = 0#512 := List.getD_replicate _ n.isLt

@[simp] theorem readK_reset (n : KReg) : readK State.reset n = 0 := by
  have hk : State.reset.k[n] = 0 := Vector.getElem_replicate n.isLt
  rw [readK, hk, opmaskBits, Nat.zero_mod]

@[simp] theorem readGpr_reset (n : GReg) : readGpr State.reset n = 0#64 := Vector.getElem_replicate n.isLt

/-! ### Memory -/

/-- Reset memory lists no byte (log entry 6). -/
@[simp] theorem readByte_reset (a : Word) : readByte State.reset a = 0#8 := rfl

/-- The whole address space holds every address. -/
@[simp] theorem holds_all (a : Word) : Region.holds Region.all a = true := by
  have ha : a.toNat < 0 + 2 ^ 64 := (Nat.zero_add _).symm ▸ a.isLt
  exact Bool.and_eq_true_iff.2 ⟨decide_eq_true (Nat.zero_le _), decide_eq_true ha⟩

/-- Reset admits every byte: its one range is the whole address space (log entry 5). -/
@[simp] theorem byteAccessible_reset (a : Word) : byteAccessible State.reset.params a = true :=
  List.any_eq_true.2 ⟨Region.all, List.mem_singleton_self _, holds_all a⟩

/-! ### The statement -/

/-- Settles O53: registers and memory by their reads; the other fields are the reset state's own. -/
theorem resetHoldsTheNamedValues : Obligations.ResetHoldsTheNamedValues := by
  unfold Obligations.ResetHoldsTheNamedValues
  exact ⟨List.length_replicate, readZmm_reset, readK_reset, readGpr_reset, rfl, rfl, rfl,
    fun a => ⟨readByte_reset a, byteAccessible_reset a⟩, rfl, rfl, rfl, rfl, rfl, rfl, rfl, rfl⟩

end Sys2Proof.Machine
end
